-- ==== Sys2Proof/Word.lean ====
section
/-!
DEFINITION. The word and byte types of SF-SHA256 (spec/00_scope.md R7) and the group of eight words that the hash state
`H[0..7]` and the working variables `v[0..7]` both are (spec/10_state.md R10, spec/41_compress.md R88).
-/

namespace Sys2Proof

/-- A 32-bit unsigned word (R7 `WORD_W`); `+` on it is `ADD32`, addition modulo 2^32 (R65). -/
abbrev Word := BitVec 32

/-- An 8-bit byte (R7 `DATA_W`, R32). -/
abbrev Byte := BitVec 8

/-- An ordered sequence of exactly eight words, element 0 first (R10, R12). -/
structure Words8 where
  w0 : Word
  w1 : Word
  w2 : Word
  w3 : Word
  w4 : Word
  w5 : Word
  w6 : Word
  w7 : Word
  deriving DecidableEq, Repr

/-- The eight words in index order. -/
def Words8.toList (x : Words8) : List Word := [x.w0, x.w1, x.w2, x.w3, x.w4, x.w5, x.w6, x.w7]

end Sys2Proof
end

