-- ==== Sys2Proof/Config.lean ====
section
/-!
DEFINITION. What is fixed for the machine and is neither state nor a value of the algorithm (spec/00_scope.md R7). The
constants of the algorithm, `K` and the initial hash words, stand in Machine/Constants.lean. The spec leaves no result
of an operation open (spec/93_implementation_defined.md, end of Part 1), so there is no free value here.
-/

namespace Sys2Proof

/-- `LEN_W`, the width of the length field of `PROCESS` (R7, R50; the spec's default, D5). -/
abbrev Config.lenWidth : Nat := 30

/-- What a byte of `BUF` that nothing has written reads as. DESIGN CHOICE (notes/assumptions/3.md), unsafe: the spec
calls the contents of `BUF` after reset unspecified and unobservable (R25, R26). -/
def Config.unwrittenByte : Byte := 0

end Sys2Proof
end

