-- ==== Sys2Proof/Syntax.lean ====
section
/-!
DEFINITION. The commands of SF-SHA256: one constructor for each row of spec/opcode_table.json (spec/30_encoding.md R45,
R49). The data bytes of a `PROCESS` are no part of the command word; they travel on the data-in channel (R57).
-/

namespace Sys2Proof

/-- The three commands, the only operations the block offers to the host (R45). -/
inductive Instr where
  /-- `RESET` (R51, R101). -/
  | reset
  /-- `PROCESS len` (R52, R102): `len` is the number of data bytes that follow on the data-in channel. -/
  | process (len : Nat)
  /-- `DIGEST` (R53, R108). -/
  | digest
  deriving DecidableEq, Repr

end Sys2Proof
end

