-- ==== Sys2Proof/WellFormed.lean ====
section
/-!
DEFINITION. Which terms of `Instr` stand for a command word: the one operand has to fit its field (spec/30_encoding.md
R50: "0 ≤ `len` ≤ 2^30 − 1").
-/

namespace Sys2Proof

/-- The length operand of `PROCESS` fits the 30-bit field `LEN` (R50); `RESET` and `DIGEST` have no operand. -/
def Instr.wf : Instr → Bool
  | .reset => true
  | .process len => decide (len < 2 ^ Config.lenWidth)
  | .digest => true

end Sys2Proof
end

