-- ==== Sys2Proof/Decode.lean ====
section
/-!
DEFINITION. From command words to commands and back (spec/30_encoding.md R48 to R57). The decoder is total on 32-bit
words and rejects each of the three reserved ranges of R55 by name.
-/

namespace Sys2Proof

/-- Why a word is no command: the three rows of R55's table. -/
inductive ReservedWord where
  /-- `0x00000000 .. 0x3FFFFFFF`: `OP = 00`, no operation assigned. -/
  | noOperation
  /-- `0x40000001 .. 0x7FFFFFFF`: `RESET` with `LEN ≠ 0`. -/
  | resetWithLength
  /-- `0xC0000001 .. 0xFFFFFFFF`: `DIGEST` with `LEN ≠ 0`. -/
  | digestWithLength
  deriving DecidableEq, Repr

/-- What the decoder reads from a word. -/
inductive Decoded where
  | command (i : Instr)
  | reserved (why : ReservedWord)
  deriving DecidableEq, Repr

/-- `OP`, bits 31:30 of a command word (R48). -/
def opField (w : Word) : BitVec 2 := w.extractLsb' 30 2

/-- `LEN`, bits 29:0 of a command word (R48). -/
def lenField (w : Word) : BitVec 30 := w.extractLsb' 0 30

/-- The decoder of R56: `len = zext(LEN)`, unsigned and unscaled (R50). -/
def decode (w : Word) : Decoded :=
  if opField w = 0b01 then
    if lenField w = 0 then .command .reset else .reserved .resetWithLength
  else if opField w = 0b10 then
    .command (.process (lenField w).toNat)
  else if opField w = 0b11 then
    if lenField w = 0 then .command .digest else .reserved .digestWithLength
  else .reserved .noOperation

/-- The word of a command (R51, R52, R53): `PROCESS len` is `0x80000000 + len`. -/
def encode : Instr → Word
  | .reset => 0x40000000
  | .process len => 0x80000000 + BitVec.ofNat 32 len
  | .digest => 0xC0000000

/-- The command word whose bits `spec/opcode_table.json` numbers as `w`: bit 0 is the least significant bit, every bit
from `nbits` up is 0. The command channel carries whole 32-bit words (R57), so no byte order enters. -/
def tableWord (nbits w : Nat) : Word := BitVec.ofNat 32 (w % 2 ^ nbits)

/-- The command the decoder reads from a row of the opcode table. -/
def decodeTableWord (nbits w : Nat) : Option Instr :=
  match decode (tableWord nbits w) with
  | .command i => some i
  | .reserved _ => none

end Sys2Proof
end

