-- ==== Sys2Proof/Machine/State.lean ====
section
/-!
DEFINITION. The state of one instance of SF-SHA256, as plain data: the four pieces of architectural state (spec/10_state.md
R10, R14, R15, R18, R20), the operation in progress (spec/30_encoding.md R47, spec/60_exceptions.md R121), the three
channels as sequences and the two pins the host drives (R46); the reasons a step can stop; the state after reset (R25,
R140).
-/

namespace Sys2Proof.Machine

/-- The contents of `BUF`: the listed bytes by index. An index not listed reads as `Config.unwrittenByte`; the canonical
form is `Memory.wf` (Machine/Ops.lean). -/
abbrev Memory := List Host.Cell

/-- The complete mutable state of a Streaming Hasher (R20), "a flat value type, trivially copyable" (R108). -/
structure Hasher where
  /-- `H[0..7]`, the hash state (R10). -/
  H : Words8
  /-- `BUF[0..63]`, the partial-block buffer (R14). -/
  BUF : Memory
  /-- The count of valid bytes in `BUF`, 0..63 (R15). -/
  BUFCNT : BitVec 6
  /-- The total count of bytes passed to `PROCESS` since the last reset, modulo 2^64 (R18). -/
  CNT : BitVec 64
  deriving DecidableEq, Repr

/-- What the block is doing between two steps (R47: an operation is in progress until it is complete). -/
inductive Op where
  /-- No operation is in progress: the block is ready for a command. -/
  | idle
  /-- A `PROCESS` is in progress and `rem` of its data bytes have not been transferred yet (R52, R121). -/
  | process (rem : Nat)
  /-- A `DIGEST` is in progress: its value is offered on the digest-out channel and not yet transferred (R53). -/
  | digest (out : BitVec 256)
  deriving DecidableEq, Repr

/-- One instance of the block with its channels and pins. -/
structure State where
  /-- The architectural state (R20). -/
  core : Hasher
  /-- The operation in progress (R47). -/
  op : Op
  /-- The command words the host offers and that are not yet transferred, the next one first (R46, R47). -/
  cmds : List Word
  /-- The data bytes the host offers and that are not yet transferred, the next one first (R46, R52). -/
  din : List Byte
  /-- The digests transferred to the host, oldest first (R46, R53, R152). -/
  digests : List (BitVec 256)
  /-- The level of `rst_n`, driven by the host, active low (R46, R140). -/
  rstN : Bool
  /-- The level of `dout_ready`, driven by the host (R46). -/
  doutReady : Bool
  deriving DecidableEq, Repr

/-- Reasons to fault: none. "The block raises no synchronous exception" and its table of causes is empty (R120), so
nothing raises a fault and no constructor stands here; this is safe. -/
inductive Fault : Type
  deriving DecidableEq, Repr

/-- Reasons a step has no meaning. -/
inductive Refusal where
  /-- Raised by `exec` for a command that has no meaning yet (by none: every command has one). Safe. -/
  | notModelled (mnemonic : String)
  /-- Raised by `step` when the word at the head of the command channel is reserved: "the spec defines no behaviour for a
  reserved word: a model refuses it" (R55, R123, D8). Safe: it errs toward unprovable. -/
  | reservedCommand (why : ReservedWord)
  deriving DecidableEq, Repr

/-! ## Updates, one per field -/

def Hasher.setH (c : Hasher) (x : Words8) : Hasher := { c with H := x }
def Hasher.setBUF (c : Hasher) (x : Memory) : Hasher := { c with BUF := x }
def Hasher.setBUFCNT (c : Hasher) (x : BitVec 6) : Hasher := { c with BUFCNT := x }
def Hasher.setCNT (c : Hasher) (x : BitVec 64) : Hasher := { c with CNT := x }

def State.setCore (s : State) (x : Hasher) : State := { s with core := x }
def State.setOp (s : State) (x : Op) : State := { s with op := x }
def State.setCmds (s : State) (x : List Word) : State := { s with cmds := x }
def State.setDin (s : State) (x : List Byte) : State := { s with din := x }
def State.setDigests (s : State) (x : List (BitVec 256)) : State := { s with digests := x }
def State.setRstN (s : State) (x : Bool) : State := { s with rstN := x }
def State.setDoutReady (s : State) (x : Bool) : State := { s with doutReady := x }

/-! ## Reset -/

/-- The state right after reset: R25 for the architectural state, R140 for the operation (none in progress). `BUF` lists
nothing (notes/assumptions/3.md); the channels are empty and both pins high (notes/assumptions/2.md). -/
def State.reset : State where
  core := { H := initialHash, BUF := [], BUFCNT := 0, CNT := 0 }
  op := .idle
  cmds := []
  din := []
  digests := []
  rstN := true
  doutReady := true

end Sys2Proof.Machine
end

