-- ==== Sys2Proof/Machine/Flags.lean ====
section
/-!
DEFINITION. The block has no flags and no status register (spec/10_state.md R20, R23). What it shows of its status is
three handshake outputs and the digest value (spec/30_encoding.md R46); they are functions of the state, and so are the
host's offers on the two input channels.
-/

namespace Sys2Proof.Machine

/-- `cmd_ready`: 1 when no operation is in progress (R47, R140). Low while `rst_n` is low (notes/assumptions/7.md). -/
def State.cmdReady (s : State) : Bool := s.rstN && decide (s.op = .idle)

/-- `din_ready`: 1 only while a `PROCESS` is in progress and still needs bytes (R52). -/
def State.dinReady (s : State) : Bool :=
  match s.op with
  | .process rem => s.rstN && decide (0 < rem)
  | .idle => false
  | .digest _ => false

/-- `dout_valid`: 1 while a digest is offered and not yet transferred (R53). -/
def State.doutValid (s : State) : Bool :=
  match s.op with
  | .digest _ => s.rstN
  | .idle => false
  | .process _ => false

/-- `dout[255:0]`, with a meaning only while `dout_valid` is 1 (R53). -/
def State.dout (s : State) : Option (BitVec 256) :=
  match s.op with
  | .digest out => if s.rstN then some out else none
  | .idle => none
  | .process _ => none

/-- `cmd_valid` and `cmd[31:0]`: the word the host offers (R46). -/
def State.cmd (s : State) : Option Word := s.cmds.head?

/-- `din_valid` and `din[7:0]`: the byte the host offers (R46). -/
def State.dinByte (s : State) : Option Byte := s.din.head?

end Sys2Proof.Machine
end

