-- ==== Sys2Proof/Machine/Primitives.lean ====
section
/-!
DEFINITION. Word arithmetic and the helper functions of spec/40_primitives.md. `x + y` on `Word` is `ADD32` (R65), `&&&`,
`^^^`, `~~~` the bitwise operators (R68), `x >>> n` the logical shift with zero fill (R67). No primitive writes a flag or
can fail.
-/

namespace Sys2Proof.Machine

/-- `rotr(x, n)`, 32-bit circular right rotation, 1 ≤ n ≤ 31 (R66). -/
def rotr (x : Word) (n : Nat) : Word := (x >>> n) ||| (x <<< (32 - n))

/-- `Ch(x, y, z)` (R69). -/
def ch (x y z : Word) : Word := (x &&& y) ^^^ (~~~x &&& z)

/-- `Maj(x, y, z)` (R70). -/
def maj (x y z : Word) : Word := (x &&& y) ^^^ (x &&& z) ^^^ (y &&& z)

/-- `Σ0(x)`, capital sigma 0 (R71). -/
def bigSigma0 (x : Word) : Word := rotr x 2 ^^^ rotr x 13 ^^^ rotr x 22

/-- `Σ1(x)`, capital sigma 1 (R72). -/
def bigSigma1 (x : Word) : Word := rotr x 6 ^^^ rotr x 11 ^^^ rotr x 25

/-- `σ0(x)`, small sigma 0; its third term is a shift, not a rotation (R73). -/
def smallSigma0 (x : Word) : Word := rotr x 7 ^^^ rotr x 18 ^^^ (x >>> 3)

/-- `σ1(x)`, small sigma 1; its third term is a shift, not a rotation (R74). -/
def smallSigma1 (x : Word) : Word := rotr x 17 ^^^ rotr x 19 ^^^ (x >>> 10)

/-- `BE32` of the four bytes `b0 b1 b2 b3`: `b0` supplies bits 31:24 (R76). -/
def be32 (b0 b1 b2 b3 : Byte) : Word := b0 ++ b1 ++ b2 ++ b3

/-- `BYTES32(w)`: the four bytes of a word, most significant first (R77). -/
def bytes32 (w : Word) : List Byte :=
  [w.extractLsb' 24 8, w.extractLsb' 16 8, w.extractLsb' 8 8, w.extractLsb' 0 8]

/-- `BYTES64(w)`: the eight bytes of a 64-bit value, most significant first (R78). -/
def bytes64 (w : BitVec 64) : List Byte :=
  [w.extractLsb' 56 8, w.extractLsb' 48 8, w.extractLsb' 40 8, w.extractLsb' 32 8,
   w.extractLsb' 24 8, w.extractLsb' 16 8, w.extractLsb' 8 8, w.extractLsb' 0 8]

end Sys2Proof.Machine
end

