-- ==== Sys2Proof/Machine/Compress.lean ====
section
/-!
DEFINITION. The Compression Core, spec/41_compress.md: `COMPRESS` in the steps of R86 to R92. A block is the list of its
64 bytes, `block[0]` first. The schedule, the working variables, `T1` and `T2` live inside one `COMPRESS` and are no
state (spec/10_state.md R21).
-/

namespace Sys2Proof.Machine

/-- Step 1a: `W[i] <- BE32(block[4i .. 4i+3])` for i = 0 .. 15 (R86). -/
def loadSchedule (block : List Byte) : List Word :=
  (List.range 16).map fun i =>
    be32 (block.getD (4 * i) 0) (block.getD (4 * i + 1) 0) (block.getD (4 * i + 2) 0) (block.getD (4 * i + 3) 0)

/-- The schedule word `W[t]` that follows the words `W[0 .. t-1]` (R87). -/
def nextScheduleWord (W : List Word) : Word :=
  smallSigma1 (W.getD (W.length - 2) 0) + W.getD (W.length - 7) 0
    + smallSigma0 (W.getD (W.length - 15) 0) + W.getD (W.length - 16) 0

/-- Append `n` more schedule words in increasing `t` (R87). -/
def extendSchedule (n : Nat) (W : List Word) : List Word :=
  match n with
  | 0 => W
  | n + 1 => extendSchedule n (W ++ [nextScheduleWord W])

/-- Step 1: the message schedule `W[0 .. 63]` of a block (R86, R87). -/
def messageSchedule (block : List Byte) : List Word := extendSchedule 48 (loadSchedule block)

/-- `T1` of a round (R89). -/
def roundT1 (v : Words8) (k w : Word) : Word := v.w7 + bigSigma1 v.w4 + ch v.w4 v.w5 v.w6 + k + w

/-- `T2` of a round (R89). -/
def roundT2 (v : Words8) : Word := bigSigma0 v.w0 + maj v.w0 v.w1 v.w2

/-- One round with constant `k` and schedule word `w`: `T1`, `T2` (R89), then the simultaneous shift (R90). -/
def mixRound (v : Words8) (k w : Word) : Words8 where
  w0 := roundT1 v k w + roundT2 v
  w1 := v.w0
  w2 := v.w1
  w3 := v.w2
  w4 := v.w3 + roundT1 v k w
  w5 := v.w4
  w6 := v.w5
  w7 := v.w6

/-- Step 2: the rounds for t = 0, 1, … , each with `K[t]` and `W[t]` (R89). -/
def mixRounds (v : Words8) (W : List Word) : Words8 :=
  (roundConstants.zip W).foldl (fun u kw => mixRound u kw.1 kw.2) v

/-- Step 3: `H[i] <- H[i] + v[i]` for i = 0 .. 7 (R92). -/
def feedForward (H v : Words8) : Words8 where
  w0 := H.w0 + v.w0
  w1 := H.w1 + v.w1
  w2 := H.w2 + v.w2
  w3 := H.w3 + v.w3
  w4 := H.w4 + v.w4
  w5 := H.w5 + v.w5
  w6 := H.w6 + v.w6
  w7 := H.w7 + v.w7

/-- `COMPRESS`: the new hash state from the old one and a block (R85, R97); the working variables start as a copy of
`H` (R88). -/
def compress (H : Words8) (block : List Byte) : Words8 := feedForward H (mixRounds H (messageSchedule block))

end Sys2Proof.Machine
end

