-- ==== Sys2Proof/Machine/Ops.lean ====
section
/-!
DEFINITION. The named operations over the memory and the registers: `MemRead` and `MemWrite` on `BUF` (spec/00_scope.md
R8, spec/10_state.md R14), the valid bytes (R15), the counter (spec/40_primitives.md R79), and the registers after a
reset (R25, R101). The block takes no exception and returns from none (spec/60_exceptions.md R120, R126, R127), so no
operation for either stands here.
-/

namespace Sys2Proof.Machine

/-! ## The partial-block buffer -/

/-- The number of bytes of `BUF` (R14). -/
def bufBytes : Nat := 64

/-- The byte `BUF[a]`. -/
def Memory.read (m : Memory) (a : Nat) : Byte :=
  match m with
  | [] => Config.unwrittenByte
  | (k, b) :: rest => if k = a then b else Memory.read rest a

/-- `BUF[a] <- b`, keeping the canonical form. -/
def Memory.write (m : Memory) (a : Nat) (b : Byte) : Memory :=
  match m with
  | [] => if b = Config.unwrittenByte then [] else [(a, b)]
  | (k, v) :: rest =>
    if a < k then (if b = Config.unwrittenByte then (k, v) :: rest else (a, b) :: (k, v) :: rest)
    else if a = k then (if b = Config.unwrittenByte then rest else (a, b) :: rest)
    else (k, v) :: Memory.write rest a b

/-- The listed indices rise strictly from `lo` on, stay below 64, and list no byte an unlisted index reads as. -/
def Memory.wfFrom (lo : Nat) (m : Memory) : Bool :=
  match m with
  | [] => true
  | (k, b) :: rest => decide (lo ≤ k) && decide (k < bufBytes) && decide (b ≠ Config.unwrittenByte) && Memory.wfFrom (k + 1) rest

/-- The canonical form of `BUF`. -/
def Memory.wf (m : Memory) : Bool := Memory.wfFrom 0 m

/-- `MemRead(addr, n)`: the bytes `BUF[addr .. addr+n-1]` (R8). -/
def memRead (m : Memory) (addr n : Nat) : List Byte :=
  match n with
  | 0 => []
  | n + 1 => m.read addr :: memRead m (addr + 1) n

/-- `MemWrite(addr, n, s)`: write the sequence `s` to `BUF[addr ..]` (R8). `PROCESS` keeps `addr + n ≤ 64` (R104). -/
def memWrite (m : Memory) (addr : Nat) (s : List Byte) : Memory :=
  match s with
  | [] => m
  | b :: rest => memWrite (m.write addr b) (addr + 1) rest

/-- The valid bytes `BUF[0 .. BUFCNT-1]` (R15). -/
def Hasher.validBytes (c : Hasher) : List Byte := memRead c.BUF 0 c.BUFCNT.toNat

/-! ## The counter -/

/-- `ADD64(c, n) = (c + n) mod 2^64` (R79 a). -/
def add64 (c : BitVec 64) (n : Nat) : BitVec 64 := c + BitVec.ofNat 64 n

/-- `BITLEN(c) = (c × 8) mod 2^64`: shifted left by 3, the three top bits dropped (R79 b). -/
def bitLen (c : BitVec 64) : BitVec 64 := c <<< 3

/-! ## The registers after a reset -/

/-- The architectural state a reset leaves (R25, R101). The bytes of `BUF` need not be written and keep their old values
(R26; notes/assumptions/4.md). -/
def Hasher.afterReset (c : Hasher) : Hasher := ((c.setH initialHash).setBUFCNT 0).setCNT 0

end Sys2Proof.Machine
end

