-- ==== Sys2Proof/Machine/Operands.lean ====
section
/-!
DEFINITION. The operand and result forms. The only operand field is `LEN`, read by the decoder as an unsigned, unscaled
number (spec/30_encoding.md R50); the other operand is the run of data bytes on the data-in channel (R52); the only
result is the 32-byte digest on the digest-out channel (R54).
-/

namespace Sys2Proof.Machine

/-- The bytes a `PROCESS` that still needs `rem` bytes takes from the data-in channel now: the next ones, in order, and
no more than it needs (R52, R60). -/
def State.operandBytes (s : State) (rem : Nat) : List Byte := s.din.take rem

/-- The bytes that stay on the data-in channel for a later `PROCESS` (R121, R145). -/
def State.surplusBytes (s : State) (rem : Nat) : List Byte := s.din.drop rem

/-- The 256-bit value that carries the bytes `out`: `out[i]` is `dout[255-8i : 248-8i]` (R54). -/
def doutOf (out : List Byte) : BitVec 256 := out.foldl (fun acc b => acc <<< 8 ||| b.setWidth 256) 0

end Sys2Proof.Machine
end

