-- ==== Sys2Proof/Machine/Hasher.lean ====
section
/-!
DEFINITION. The Streaming Hasher, spec/42_hasher.md: the loop of `PROCESS` (R103, R104), the footer and the digest of
`DIGEST` (R109 to R113), and the meanings of the three commands.
-/

namespace Sys2Proof.Machine

/-! ## PROCESS -/

/-- First step of `PROCESS`: the counter is raised by the announced length at once (R103). -/
def Hasher.count (c : Hasher) (len : Nat) : Hasher := c.setCNT (add64 c.CNT len)

/-- `n <- min(64 - BUFCNT, rem)`, the number of bytes a buffer-path pass copies (R104). -/
def Hasher.copyCount (c : Hasher) (rem : Nat) : Nat := min (64 - c.BUFCNT.toNat) rem

/-- The buffer path of R104: copy `n` bytes to `BUF[BUFCNT ..]`; a buffer that becomes full is compressed and emptied. -/
def Hasher.bufferPass (c : Hasher) (data : List Byte) : Hasher :=
  let n := c.copyCount data.length
  let buf := memWrite c.BUF c.BUFCNT.toNat (data.take n)
  if c.BUFCNT.toNat + n = 64 then ((c.setBUF buf).setH (compress c.H (memRead buf 0 64))).setBUFCNT 0
  else (c.setBUF buf).setBUFCNT (BitVec.ofNat 6 (c.BUFCNT.toNat + n))

/-- The direct path of R104: the next 64 input bytes go to `COMPRESS` and `BUF` is not written. -/
def Hasher.directPass (c : Hasher) (data : List Byte) : Hasher := c.setH (compress c.H (data.take 64))

/-- Which path a pass takes: the buffer path when the buffer holds bytes or fewer than 64 remain (R104). -/
def Hasher.takesBufferPath (c : Hasher) (data : List Byte) : Bool :=
  decide (0 < c.BUFCNT.toNat) || decide (data.length < 64)

/-- Second step of `PROCESS`: the loop of R104 over the bytes `data`. Every pass consumes at least one byte, so
`data.length` passes are enough. -/
def Hasher.absorbLoop (passes : Nat) (c : Hasher) (data : List Byte) : Hasher :=
  match passes with
  | 0 => c
  | passes + 1 =>
    if data.isEmpty then c
    else if c.takesBufferPath data then
      Hasher.absorbLoop passes (c.bufferPass data) (data.drop (c.copyCount data.length))
    else Hasher.absorbLoop passes (c.directPass data) (data.drop 64)

/-- The bytes `data` absorbed in order (R104). -/
def Hasher.absorb (c : Hasher) (data : List Byte) : Hasher := Hasher.absorbLoop data.length c data

/-- `PROCESS(data, len)` with all its bytes at hand: R103, then R104. -/
def Hasher.feed (c : Hasher) (data : List Byte) : Hasher := (c.count data.length).absorb data

/-! ## DIGEST -/

/-- `flen <- (BUFCNT ≤ 55 ? 64 : 128) - BUFCNT` (R110). -/
def Hasher.footerLength (c : Hasher) : Nat := (if c.BUFCNT.toNat ≤ 55 then 64 else 128) - c.BUFCNT.toNat

/-- The footer: `0x80`, zeros, and the bit length of the counter as it stands before the footer is fed (R109, R111). -/
def Hasher.footer (c : Hasher) : List Byte :=
  0x80 :: List.replicate (c.footerLength - 9) 0x00 ++ bytes64 (bitLen c.CNT)

/-- The copy after the footer has been fed through the `PROCESS` logic (R109, R112). -/
def Hasher.padded (c : Hasher) : Hasher := c.feed c.footer

/-- The eight words of a hash state as 32 bytes, each word big-endian (R113). -/
def digestBytes (H : Words8) : List Byte := H.toList.flatMap bytes32

/-- The digest `out[0 .. 31]` (R113); the copy is discarded. -/
def Hasher.digest (c : Hasher) : List Byte := digestBytes c.padded.H

/-! ## Operations in progress -/

/-- A `PROCESS` that needs `rem` bytes takes those that are offered; it is complete when none is missing (R47, R52), and
otherwise waits for the rest (R121). -/
def State.takeData (s : State) (rem : Nat) : State :=
  let data := s.operandBytes rem
  ((s.setCore (s.core.absorb data)).setDin (s.surplusBytes rem)).setOp
    (if data.length < rem then .process (rem - data.length) else .idle)

/-- A digest is offered; the command is complete when the host accepts it, and the value is held until then (R53). -/
def State.offerDigest (s : State) (out : BitVec 256) : State :=
  if s.doutReady then (s.setDigests (s.digests ++ [out])).setOp .idle else s.setOp (.digest out)

/-! ## The meanings -/

/-- `RESET` (R51, R101). -/
def execReset (s : State) : Host.Outcome State Fault Refusal :=
  .next ((s.setCore s.core.afterReset).setOp .idle)

/-- `PROCESS len` (R52, R102): the counter first (R103), then the bytes (R104). -/
def execProcess (len : Nat) (s : State) : Host.Outcome State Fault Refusal :=
  .next ((s.setCore (s.core.count len)).takeData len)

/-- `DIGEST` (R53, R108): the live state is only read. -/
def execDigest (s : State) : Host.Outcome State Fault Refusal :=
  .next (s.offerDigest (doutOf s.core.digest))

end Sys2Proof.Machine
end

