-- ==== Sys2Proof/Machine/Channels.lean ====
section
/-!
DEFINITION. What a step does besides running a command: the hardware reset (spec/70_reset_and_hazards.md R140, R141), the
continuation of the operation in progress (spec/30_encoding.md R47), and the transfer of the next command word.
-/

namespace Sys2Proof.Machine

/-- The block while `rst_n` is low: the registers of R25, no operation in progress; the operation under way is abandoned,
and what the host offers but has not transferred remains the host's (R140, R141). -/
def State.hardwareReset (s : State) : State := (s.setCore s.core.afterReset).setOp .idle

/-- The step that does not run a command: the hardware reset at any time it is asserted (R141, R142), else the
continuation of the operation in progress; none when the block is ready for a command. -/
def State.continueOp (s : State) : Option State :=
  if s.rstN then
    match s.op with
    | .process rem => some (s.takeData rem)
    | .digest out => some (s.offerDigest out)
    | .idle => none
  else some s.hardwareReset

/-- The transfer of the next command word (R47): the word and the state without it; none when no word is offered. -/
def State.takeCommand (s : State) : Option (Word × State) :=
  match s.cmds with
  | [] => none
  | w :: rest => some (w, s.setCmds rest)

/-- The state made ready for a command, with `w` offered before every other word. -/
def State.offerNext (s : State) (w : Word) : State := ((s.setRstN true).setOp .idle).setCmds (w :: s.cmds)

end Sys2Proof.Machine
end

