-- ==== Sys2Proof/Machine/Dispatch.lean ====
section
/-!
DEFINITION. One arm per constructor of `Instr`: the meaning of each command, applied to the state after the command word
has been transferred.
-/

namespace Sys2Proof.Machine

def exec (i : Instr) (s : State) : Host.Outcome State Fault Refusal :=
  match i with
  | .reset => Sys2Proof.Machine.execReset s
  | .process len => Sys2Proof.Machine.execProcess len s
  | .digest => Sys2Proof.Machine.execDigest s

end Sys2Proof.Machine
end

