-- ==== Sys2Proof/Machine/Step.lean ====
section
/-!
DEFINITION. One step of the block, at the operation level of spec/00_scope.md R5: the reset or the operation in progress
goes first; otherwise the next command word is transferred, decoded and run (spec/30_encoding.md R47); with none offered
the block holds its state (spec/60_exceptions.md R134); a reserved word is refused (R55, R123).
-/

namespace Sys2Proof.Machine

/-- What becomes of a transferred command word `w`. -/
def runWord (w : Word) (s : State) : Host.Outcome State Fault Refusal :=
  match decode w with
  | .command i => exec i s
  | .reserved why => .refused (.reservedCommand why)

/-- One step. -/
def step (s : State) : Host.Outcome State Fault Refusal :=
  match s.continueOp with
  | some t => .next t
  | none =>
    match s.takeCommand with
    | some (w, t) => runWord w t
    | none => .next s

/-- `s` with the command word that the opcode table numbers `w` offered next to a block that is ready for it: no
operation in progress and `rst_n` high (notes/assumptions/13.md). -/
def State.withFetchWord (s : State) (nbits w : Nat) : State := s.offerNext (tableWord nbits w)

end Sys2Proof.Machine
end

