-- ==== Sys2Proof/Machine/HostInterface.lean ====
section
/-!
DEFINITION. What the host can do to the block between two steps (spec/00_scope.md R6, spec/30_encoding.md R46), and the
pseudo-operations (R59).
-/

namespace Sys2Proof.Machine

/-! ## Channels and pins -/

/-- Offer one more command word (R46). -/
def State.offerCommand (s : State) (w : Word) : State := s.setCmds (s.cmds ++ [w])

/-- Offer more data bytes, in order (R46, R60). -/
def State.offerBytes (s : State) (bs : List Byte) : State := s.setDin (s.din ++ bs)

/-- Drive `rst_n` (R46, R140). DESIGN CHOICE (notes/assumptions/7.md): the minimum width of a pulse is deliberately not
decided by the spec; the level acts in a step, so a pulse that no step sees resets nothing. -/
def State.driveReset (s : State) (level : Bool) : State := s.setRstN level

/-- Drive `dout_ready` (R46). -/
def State.driveDoutReady (s : State) (level : Bool) : State := s.setDoutReady level

/-- A command with the data bytes the host supplies for it. -/
structure HostCommand where
  instr : Instr
  data : List Byte
  deriving DecidableEq, Repr

/-- The data discipline of R145: exactly the announced bytes, and none for a command without data. -/
def HostCommand.wf (c : HostCommand) : Bool :=
  c.instr.wf &&
    match c.instr with
    | .reset => c.data.isEmpty
    | .process len => decide (c.data.length = len)
    | .digest => c.data.isEmpty

/-- Offer a sequence of commands with their data. -/
def State.issue (s : State) (p : List HostCommand) : State :=
  (s.setCmds (s.cmds ++ p.map fun c => encode c.instr)).offerBytes (p.flatMap HostCommand.data)

/-! ## Pseudo-operations -/

/-- A `PROCESS` command for the bytes `X`. -/
def processOf (X : List Byte) : HostCommand := ⟨.process X.length, X⟩

/-- `PROCESS X` of any length: parts shorter than 2^30 bytes, in order (R59, R50); `parts` bounds their number.
DESIGN CHOICE (notes/assumptions/17.md): R59 allows any such parts; every part but the last has 2^30 - 1 bytes here. -/
def splitProcess (parts : Nat) (X : List Byte) : List HostCommand :=
  match parts with
  | 0 => []
  | parts + 1 =>
    if X.length < 2 ^ Config.lenWidth then [processOf X]
    else processOf (X.take (2 ^ Config.lenWidth - 1)) :: splitProcess parts (X.drop (2 ^ Config.lenWidth - 1))

/-- The pseudo-operations of R59 that expand to commands. -/
inductive Pseudo where
  /-- `HASH X`: `RESET`; `PROCESS X`; `DIGEST`. -/
  | hash (X : List Byte)
  /-- `PROCESS X` of any length. -/
  | process (X : List Byte)
  /-- `NOP`: `PROCESS 0`. -/
  | nop
  deriving DecidableEq, Repr

/-- The expansion of a pseudo-operation (R59). -/
def Pseudo.expand : Pseudo → List HostCommand
  | .hash X => ⟨.reset, []⟩ :: splitProcess (X.length + 1) X ++ [⟨.digest, []⟩]
  | .process X => splitProcess (X.length + 1) X
  | .nop => [processOf []]

/-- `INIT` (construction, power-on): one pulse of `rst_n`, a step with it low and the pin high again (R59, R140). That the
pulse is one step wide is the model's choice (notes/assumptions/7.md). -/
def State.init (s : State) : Host.Outcome State Fault Refusal :=
  match step (s.driveReset false) with
  | .next t => .next (t.driveReset true)
  | .fault r => .fault r
  | .refused r => .refused r

end Sys2Proof.Machine
end

