-- ==== Sys2Proof/Machine/System.lean ====
section
/-!
DEFINITION. Several instances of the block (spec/10_state.md R28, spec/60_exceptions.md R132): a list of any number of
them (`N_INST` is open, spec/00_scope.md R7), each with its own state and its own channels. They share only the
constants of Machine/Constants.lean.
-/

namespace Sys2Proof.Machine

/-- The instances, numbered from 0. -/
abbrev System := List State

/-- One step of instance `i`; an instance that does not exist makes no step. DESIGN CHOICE (notes/assumptions/10.md): the
spec does not say what becomes of the other instances when one takes a reserved word (R55, R152 speak of one block's run);
here the step of the whole system is refused. -/
def System.stepAt (sys : System) (i : Nat) : Host.Outcome System Fault Refusal :=
  match sys[i]? with
  | none => .next sys
  | some s =>
    match step s with
    | .next t => .next (sys.set i t)
    | .fault r => .fault r
    | .refused r => .refused r

end Sys2Proof.Machine
end

