-- ==== Sys2Proof/Safety.lean ====
section
/-!
DEFINITION. The terms claims use: when a run is over or stuck (spec/70_reset_and_hazards.md R152, spec/60_exceptions.md
R121), the message a hasher has absorbed and its SHA-256 digest (spec/42_hasher.md R116), equality up to stale buffer
bytes (spec/10_state.md R26), the invariant of the machine (R15, R19), and the other realisations of `COMPRESS` that
spec/10_state.md R21 and spec/41_compress.md R91 allow.
-/

namespace Sys2Proof.Machine

/-! ## The end of a run -/

/-- The run is over: no offered command is left, no operation is in progress and the block is ready (R152). DESIGN CHOICE
(notes/assumptions/18.md): the spec does not say whether a run whose last command a hardware reset abandoned (R141) is
over; here it is, with the digests transferred before. -/
def State.complete (s : State) : Prop := s.cmds = [] ∧ s.op = .idle ∧ s.rstN = true

/-- The run is stuck inside a `PROCESS` for want of data (R121, R152). -/
def State.stuck (s : State) : Prop := s.din = [] ∧ (∃ rem, 0 < rem ∧ s.op = .process rem) ∧ s.rstN = true

/-- The Fresh state of the hasher (R100): initial hash words, empty buffer, zero counter. -/
def Hasher.fresh (c : Hasher) : Prop := c.H = initialHash ∧ c.BUFCNT = 0 ∧ c.CNT = 0

/-- The meanings of a sequence of commands, one after the other (R39 a: the composition of their transitions). -/
def execAll (p : List Instr) (s : State) : Host.Outcome State Fault Refusal :=
  match p with
  | [] => .next s
  | i :: rest =>
    match exec i s with
    | .next t => execAll rest t
    | .fault r => .fault r
    | .refused r => .refused r

/-! ## The message and its digest -/

/-- The successive whole 64-byte pieces of a byte sequence. -/
def blocksOf (L : List Byte) : List (List Byte) := (List.range (L.length / 64)).map fun i => (L.drop (64 * i)).take 64

/-- The bytes after the last whole 64-byte piece. -/
def tailOf (L : List Byte) : List Byte := L.drop (64 * (L.length / 64))

/-- `COMPRESS` run over the whole pieces of a byte sequence, in order. -/
def hashBlocks (H : Words8) (L : List Byte) : Words8 := (blocksOf L).foldl compress H

/-- The number of zero bytes of the padding of a message of `n` bytes: the smallest that makes `n + 1 + k + 8` a multiple
of 64 (R116). -/
def zeroCount (n : Nat) : Nat := (64 - (n + 9) % 64) % 64

/-- `M ++ 80 ++ 00…00 ++ BYTES64(8n)` (R116). -/
def paddedMessage (M : List Byte) : List Byte :=
  M ++ 0x80 :: List.replicate (zeroCount M.length) 0x00 ++ bytes64 (BitVec.ofNat 64 (8 * M.length))

/-- The SHA-256 digest of a message as R116 describes it: `COMPRESS` from the initial words over the padded message,
written out big-endian. -/
def sha256 (M : List Byte) : List Byte := digestBytes (hashBlocks initialHash (paddedMessage M))

/-- The bytes the operation in progress still needs. -/
def Op.pending : Op → Nat
  | .idle => 0
  | .process rem => rem
  | .digest _ => 0

/-- The hasher has absorbed the message `M` since the last reset, and its counter has been raised by `pending` bytes more
that are announced and not absorbed yet (R103, R107). -/
structure Hasher.Absorbed (c : Hasher) (M : List Byte) (pending : Nat) : Prop where
  hash : c.H = hashBlocks initialHash M
  valid : c.validBytes = tailOf M
  fill : c.BUFCNT.toNat = M.length % 64
  count : c.CNT = BitVec.ofNat 64 (M.length + pending)

/-- The message the block has absorbed since the last reset is `M`. -/
def State.Tracks (s : State) (M : List Byte) : Prop := s.core.Absorbed M s.op.pending

/-! ## Stale buffer bytes -/

/-- Two hashers that differ at most in buffer bytes at indices from `BUFCNT` on (R26). -/
structure Hasher.SameButStale (c d : Hasher) : Prop where
  hash : c.H = d.H
  fill : c.BUFCNT = d.BUFCNT
  count : c.CNT = d.CNT
  valid : c.validBytes = d.validBytes

/-- Two states that differ at most in stale buffer bytes (R26). -/
structure State.SameButStale (s t : State) : Prop where
  core : s.core.SameButStale t.core
  op : s.op = t.op
  cmds : s.cmds = t.cmds
  din : s.din = t.din
  digests : s.digests = t.digests
  rstN : s.rstN = t.rstN
  doutReady : s.doutReady = t.doutReady

/-! ## The buffer bytes a PROCESS stores to -/

/-- `BUF[a]` is written when `len` bytes are absorbed (R104). Bytes that do not fill the buffer go to `BUF[BUFCNT ..]`. If
they reach the end of a block, a partly filled buffer is first filled up, the direct path writes nothing, and the bytes
that are left go to the front of the buffer. -/
def Hasher.storesTo (c : Hasher) (len a : Nat) : Prop :=
  if c.BUFCNT.toNat + len < 64 then c.BUFCNT.toNat ≤ a ∧ a < c.BUFCNT.toNat + len
  else (0 < c.BUFCNT.toNat ∧ c.BUFCNT.toNat ≤ a ∧ a < 64) ∨ a < (c.BUFCNT.toNat + len) % 64

/-! ## The invariant -/

/-- What every step keeps: `BUF` in its canonical form; `BUFCNT = CNT mod 64` between operations (R19), and inside a
`PROCESS` the same with the bytes still to come; such a `PROCESS` needs at least one byte and fewer than 2^30 (R50). -/
structure State.Inv (s : State) : Prop where
  buffer : s.core.BUF.wf = true
  count : (s.core.BUFCNT.toNat + s.op.pending) % 64 = s.core.CNT.toNat % 64
  pending : ∀ rem, s.op = .process rem → 0 < rem ∧ rem < 2 ^ Config.lenWidth

/-! ## Other realisations of COMPRESS -/

/-- Rounds with the schedule kept as a window of the last 16 words (R21, R87): round `t` uses the first word of the
window `W[t .. t+15]`, which then slides on by one word. -/
def windowRounds (v : Words8) (window : List Word) (ks : List Word) : Words8 :=
  match ks with
  | [] => v
  | k :: rest =>
    windowRounds (mixRound v k (window.getD 0 0))
      (window.tail ++ [smallSigma1 (window.getD 14 0) + window.getD 9 0 + smallSigma0 (window.getD 1 0) + window.getD 0 0])
      rest

/-- `COMPRESS` with the schedule as a sliding window. -/
def compressWindow (H : Words8) (block : List Byte) : Words8 :=
  feedForward H (windowRounds H (loadSchedule block) roundConstants)

/-- The eight working variables by name, when they stay in their places and the index rotates: in round `t` variable
`v[i]` stands in place `(i + 7t) mod 8` (R91). -/
def rotatedView (t : Nat) (places : List Word) : Words8 where
  w0 := places.getD ((0 + 7 * t) % 8) 0
  w1 := places.getD ((1 + 7 * t) % 8) 0
  w2 := places.getD ((2 + 7 * t) % 8) 0
  w3 := places.getD ((3 + 7 * t) % 8) 0
  w4 := places.getD ((4 + 7 * t) % 8) 0
  w5 := places.getD ((5 + 7 * t) % 8) 0
  w6 := places.getD ((6 + 7 * t) % 8) 0
  w7 := places.getD ((7 + 7 * t) % 8) 0

/-- Rounds with a rotating index: round `t` writes two places, the one of `v[3]` (which becomes `v[4]`) and the one of
`v[7]` (which becomes `v[0]`), and moves nothing (R91). -/
def rotatedRounds (t : Nat) (places : List Word) (kws : List (Word × Word)) : Words8 :=
  match kws with
  | [] => rotatedView t places
  | kw :: rest =>
    let v := rotatedView t places
    rotatedRounds (t + 1)
      ((places.set ((3 + 7 * t) % 8) (v.w3 + roundT1 v kw.1 kw.2)).set ((7 + 7 * t) % 8) (roundT1 v kw.1 kw.2 + roundT2 v))
      rest

/-- `COMPRESS` with the working variables in fixed places and a rotating index (R91). -/
def compressRotated (H : Words8) (block : List Byte) : Words8 :=
  feedForward H (rotatedRounds 0 H.toList (roundConstants.zip (messageSchedule block)))

end Sys2Proof.Machine
end

