-- ==== Sys2Proof/Certificates/Slice0/Obligations.lean ====
section
/-!
DEFINITION. The statements for the provers. Each docstring names the rules of spec/ it formalises; `OBLIGATIONS.json`
lists them.
-/

open Sys2Proof Sys2Proof.Machine

/-! ## Encoding -/

/-- R49, R51, R52, R53 and the words of P4: a few words written out bit by bit decode as the table says. -/
def Obligations.TabledWordsDecode : Prop :=
  decode 0b01000000000000000000000000000000 = .command .reset ∧
  decode 0b10000000000000000000000000000000 = .command (.process 0) ∧
  decode 0b10000000000000000000000000000011 = .command (.process 3) ∧
  decode 0b10111111111111111111111111111111 = .command (.process 1073741823) ∧
  decode 0b11000000000000000000000000000000 = .command .digest ∧
  decode 0b00000000000000000000000000000000 = .reserved .noOperation ∧
  decode 0b01000000000000000000000000000001 = .reserved .resetWithLength ∧
  decode 0b11000000000000000000000000100000 = .reserved .digestWithLength

/-- R48, R49, R50, R56: decoding and encoding agree in both directions, for every command and every word. -/
def Obligations.EncodeAndDecodeAgree : Prop :=
  (∀ i : Instr, i.wf = true → decode (encode i) = .command i) ∧
  (∀ (w : Word) (i : Instr), decode w = .command i → i.wf = true ∧ encode i = w)

/-- R55, R123: the commands are the 2^30 + 2 words of the first clause, the reserved words are exactly the three ranges,
each under its own name, and a block that is ready for a command refuses a reserved word. -/
def Obligations.ReservedWordsAreTheThreeRanges : Prop :=
  (∀ w : Word, (∃ i, decode w = .command i) ↔
    w.toNat = 0x40000000 ∨ (0x80000000 ≤ w.toNat ∧ w.toNat ≤ 0xBFFFFFFF) ∨ w.toNat = 0xC0000000) ∧
  (∀ w : Word, decode w = .reserved .noOperation ↔ w.toNat ≤ 0x3FFFFFFF) ∧
  (∀ w : Word, decode w = .reserved .resetWithLength ↔ 0x40000001 ≤ w.toNat ∧ w.toNat ≤ 0x7FFFFFFF) ∧
  (∀ w : Word, decode w = .reserved .digestWithLength ↔ 0xC0000001 ≤ w.toNat) ∧
  (∀ (s : State) (w : Word) (rest : List Word) (why : ReservedWord), s.rstN = true → s.op = .idle → s.cmds = w :: rest →
    decode w = .reserved why → step s = .refused (.reservedCommand why))

/-! ## Steps and channels -/

/-- R47: a block that is ready takes the next command word, and the step is `exec` of the decoded command on the state
without that word. -/
def Obligations.StepRunsTheOfferedCommand : Prop :=
  ∀ (s : State) (w : Word) (rest : List Word) (i : Instr), s.rstN = true → s.op = .idle → s.cmds = w :: rest →
    decode w = .command i → step s = exec i (s.setCmds rest)

/-- R134: with no command offered the idle block holds its whole state. -/
def Obligations.IdleBlockHoldsItsState : Prop :=
  ∀ s : State, s.rstN = true → s.op = .idle → s.cmds = [] → step s = .next s

/-- R120, R93, R108, R123: a step answers a next state, except that a ready block refuses a reserved word. -/
def Obligations.OnlyReservedWordsStopTheBlock : Prop :=
  ∀ s : State, (∃ t, step s = .next t) ∨
    (s.cmdReady = true ∧ ∃ w rest why, s.cmds = w :: rest ∧ decode w = .reserved why ∧
      step s = .refused (.reservedCommand why))

/-- R47, R52, R39: while `cmd_ready` is 0 no command is taken, a step takes at most the first command word, data bytes are
taken from the front of their channel only, and a step never moves a pin the host drives. -/
def Obligations.ChannelsAreConsumedInOrder : Prop :=
  ∀ s t : State, step s = .next t →
    (s.cmdReady = false → t.cmds = s.cmds) ∧
    (t.cmds = s.cmds ∨ ∃ w, s.cmds = w :: t.cmds) ∧
    (∃ k, t.din = s.din.drop k) ∧
    t.rstN = s.rstN ∧ t.doutReady = s.doutReady

/-- R53: a step transfers at most one digest; it does so only for a `DIGEST` that is waiting or is taken in this step, only
to a host that accepts it, and the value of a `DIGEST` taken in this step is the digest of the live state. -/
def Obligations.OnlyDigestTransfersADigest : Prop :=
  ∀ s t : State, step s = .next t →
    t.digests = s.digests ∨
    ∃ d, t.digests = s.digests ++ [d] ∧ s.rstN = true ∧ s.doutReady = true ∧
      (s.op = .digest d ∨
        (s.op = .idle ∧ ∃ w rest, s.cmds = w :: rest ∧ decode w = .command .digest ∧ d = doutOf s.core.digest))

/-- R18, R130: the counter keeps its value, or is cleared by a hardware reset or by a `RESET` that the step takes (the block
is ready and its word is next), or is raised by the length of a `PROCESS` that the step takes. -/
def Obligations.CounterChangesOnlyByProcessAndReset : Prop :=
  ∀ s t : State, step s = .next t →
    t.core.CNT = s.core.CNT ∨
    (t.core.CNT = 0 ∧
      (s.rstN = false ∨ s.cmdReady = true ∧ ∃ w rest, s.cmds = w :: rest ∧ decode w = .command .reset)) ∨
    (∃ w rest len, s.cmdReady = true ∧ s.cmds = w :: rest ∧ decode w = .command (.process len) ∧
      t.core.CNT = add64 s.core.CNT len)

/-- R121: a `PROCESS` whose bytes are not all supplied takes what is there and waits, with `cmd_ready` 0 and `din_ready`
1; while nothing comes nothing changes; bytes beyond its length stay on the channel; the hardware reset ends it (the
program P4 d of spec/95_test_vectors.md is such a run). The clauses on `t.core` are the model's: that the bytes of an
unfinished `PROCESS` are absorbed as they come is log 1, that the bytes at hand choose the path, which settles the stale
bytes of `BUF` too, is log 5 (both DEDUCED: R35 and R44 call the difference unobservable). -/
def Obligations.ShortStreamLeavesProcessWaiting : Prop :=
  (∀ (s : State) (len : Nat), s.rstN = true → s.din.length < len →
    ∃ t, exec (.process len) s = .next t ∧ t.op = .process (len - s.din.length) ∧ t.din = [] ∧
      t.core = (s.core.count len).absorb s.din ∧ t.cmdReady = false ∧ t.dinReady = true ∧
      t.cmds = s.cmds ∧ t.digests = s.digests) ∧
  (∀ (s : State) (rem : Nat), s.rstN = true → s.op = .process rem → s.din.length < rem →
    ∃ t, step s = .next t ∧ t.op = .process (rem - s.din.length) ∧ t.din = [] ∧ t.core = s.core.absorb s.din ∧
      t.cmdReady = false ∧ t.dinReady = true ∧ t.cmds = s.cmds ∧ t.digests = s.digests) ∧
  (∀ (s : State) (rem : Nat), s.rstN = true → s.op = .process rem → rem ≤ s.din.length →
    ∃ t, step s = .next t ∧ t.op = .idle ∧ t.din = s.din.drop rem ∧ t.core = s.core.absorb (s.din.take rem) ∧
      t.cmdReady = true ∧ t.cmds = s.cmds ∧ t.digests = s.digests) ∧
  (∀ s : State, s.stuck → step s = .next s) ∧
  (∀ s : State, s.stuck → ∃ t, step (s.driveReset false) = .next t ∧ t.op = .idle)

/-- R141: a hardware reset ends any operation: the registers are those of R25 and no operation is in progress; nothing is
absorbed, no digest is transferred, and the bytes the host offers stay the host's; when `rst_n` is high again the block is
ready for a command. A stuck `PROCESS` is ended by nothing else: without new bytes and without a reset the step changes
nothing. -/
def Obligations.HardwareResetAbandonsTheOperation : Prop :=
  (∀ s : State, s.rstN = false →
    ∃ t, step s = .next t ∧ t.core.H = initialHash ∧ t.core.BUFCNT = 0 ∧ t.core.CNT = 0 ∧ t.op = .idle ∧
      t.din = s.din ∧ t.digests = s.digests ∧
      (t.driveReset true).cmdReady = true ∧ (t.driveReset true).dinReady = false ∧ (t.driveReset true).doutValid = false) ∧
  (∀ s : State, s.stuck → step s = .next s)

/-- R115, R142: construction (a pulse of `rst_n`) and the `RESET` command have the same effect on the architectural state,
and after the pulse the block is ready for a command. The pulse acts in every state; a command, `RESET` like any other, is
not taken while an operation is in progress. -/
def Obligations.HardwareResetEqualsResetCommand : Prop :=
  (∀ s : State, ∃ t u, s.init = .next t ∧ exec .reset s = .next u ∧ t.core = u.core ∧ t.core.fresh ∧
    t.cmdReady = true ∧ t.dinReady = false ∧ t.doutValid = false) ∧
  (∀ s t : State, s.cmdReady = false → step s = .next t → t.cmds = s.cmds)

/-- R53, R147: a digest that is offered stays as it is until the host accepts it, and the command is complete at the
transfer. -/
def Obligations.OfferedDigestIsHeldUntilAccepted : Prop :=
  ∀ (s : State) (out : BitVec 256), s.rstN = true → s.op = .digest out →
    s.doutValid = true ∧ s.dout = some out ∧ s.cmdReady = false ∧
    (s.doutReady = false → step s = .next s) ∧
    (s.doutReady = true →
      ∃ t, step s = .next t ∧ t.digests = s.digests ++ [out] ∧ t.op = .idle ∧ t.cmdReady = true ∧ t.core = s.core ∧
        t.cmds = s.cmds ∧ t.din = s.din)

/-! ## Reset -/

/-- R13, R25, R140: the registers after reset, and a block that is ready for a command. The contents of the channels, the
levels of the pins and the bytes of `BUF` at reset are the model's choice (log 2, log 3) and are not stated here. -/
def Obligations.ResetStateHasTheSpecifiedValues : Prop :=
  State.reset.core.H.toList =
    [0x6a09e667, 0xbb67ae85, 0x3c6ef372, 0xa54ff53a, 0x510e527f, 0x9b05688c, 0x1f83d9ab, 0x5be0cd19] ∧
  State.reset.core.BUFCNT = 0 ∧ State.reset.core.CNT = 0 ∧ State.reset.op = .idle ∧
  State.reset.cmdReady = true ∧ State.reset.dinReady = false ∧ State.reset.doutValid = false

/-- R101: `RESET` sets `H`, `BUFCNT` and `CNT`; it changes nothing in the Fresh state; two in a row equal one; and no
residue of the earlier input is left: the states two hashers are brought to agree in all but stale buffer bytes. -/
def Obligations.ResetCommandRestoresTheFreshState : Prop :=
  encode .reset = 0x40000000 ∧
  (∀ s : State, ∃ t, exec .reset s = .next t ∧ t.core.H = initialHash ∧ t.core.BUFCNT = 0 ∧ t.core.CNT = 0 ∧
    t.op = .idle ∧ exec .reset t = .next t) ∧
  (∀ s : State, s.core.fresh → s.op = .idle → exec .reset s = .next s) ∧
  (∀ s s' : State, ∃ t t', exec .reset s = .next t ∧ exec .reset s' = .next t' ∧ t.core.SameButStale t'.core)

/-- The frame of `RESET` (R101): the channels and pins are as before. That every byte of `BUF` is as before is the model's
choice (log 4): R26 lets a reset keep or clear them, and no rule reads them. -/
def Obligations.ResetCommandFrame : Prop :=
  ∀ s : State, ∃ t, exec .reset s = .next t ∧ t.cmds = s.cmds ∧ t.din = s.din ∧ t.digests = s.digests ∧
    t.rstN = s.rstN ∧ t.doutReady = s.doutReady ∧ ∀ a, t.core.BUF.read a = s.core.BUF.read a

/-! ## PROCESS -/

/-- R103 and the frame of `PROCESS`: with all its bytes offered it completes, raises `CNT` by its length modulo 2^64, takes
exactly its bytes, and changes no other channel and no pin; the counter is raised by the announced length at once, also when
bytes are still missing. -/
def Obligations.ProcessCountsAndCompletes : Prop :=
  (∀ (s : State) (len : Nat), len ≤ s.din.length →
    ∃ t, exec (.process len) s = .next t ∧ t.op = .idle ∧
      t.core.CNT.toNat = (s.core.CNT.toNat + len) % 2 ^ 64 ∧ t.din = s.din.drop len ∧
      t.cmds = s.cmds ∧ t.digests = s.digests ∧ t.rstN = s.rstN ∧ t.doutReady = s.doutReady) ∧
  (∀ (s : State) (len : Nat), ∃ t, exec (.process len) s = .next t ∧
    t.core.CNT.toNat = (s.core.CNT.toNat + len) % 2 ^ 64)

/-- R104, R107: with `L` the valid bytes followed by the data, `COMPRESS` has been run on the successive 64-byte pieces of
`L`, as many as there are, and the valid bytes are the rest of `L`. The premise is the canonical form of `BUF`, which
every step keeps. -/
def Obligations.ProcessPostState : Prop :=
  ∀ (s : State) (len : Nat), s.core.BUF.wf = true → len ≤ s.din.length →
    ∃ t, exec (.process len) s = .next t ∧
      t.core.H = (blocksOf (s.core.validBytes ++ s.din.take len)).foldl compress s.core.H ∧
      (blocksOf (s.core.validBytes ++ s.din.take len)).length = (s.core.BUFCNT.toNat + len) / 64 ∧
      t.core.validBytes = tailOf (s.core.validBytes ++ s.din.take len) ∧
      t.core.BUFCNT.toNat = (s.core.BUFCNT.toNat + len) % 64

/-- R105: a zero-length `PROCESS` leaves the whole state as it is, whatever is offered. -/
def Obligations.ZeroLengthProcessChangesNothing : Prop :=
  ∀ s : State, s.op = .idle → exec (.process 0) s = .next s

/-- R104, R8: every byte of `BUF` that a `PROCESS` does not store to reads as before, and a `PROCESS` that does not fill
the buffer stores its bytes at `BUF[BUFCNT ..]`. Where the buffer is emptied, that the bytes which are then stale and not
stored to again keep their values is the model's choice (log 4): R26 and D11 leave it open. -/
def Obligations.ProcessStoresOnlyWhereR104Says : Prop :=
  ∀ (s : State) (len : Nat), s.core.BUF.wf = true → len ≤ s.din.length →
    ∃ t, exec (.process len) s = .next t ∧
      (∀ a, ¬ s.core.storesTo len a → t.core.BUF.read a = s.core.BUF.read a) ∧
      (s.core.BUFCNT.toNat + len < 64 →
        ∀ j, j < len → t.core.BUF.read (s.core.BUFCNT.toNat + j) = (s.din.take len).getD j 0)

/-- R44, R104: whole blocks that meet an empty buffer go to `COMPRESS` without copying; `BUF` is not written. -/
def Obligations.DirectPathLeavesTheBufferAlone : Prop :=
  ∀ (s : State) (len : Nat), s.core.BUFCNT = 0 → len % 64 = 0 → len ≤ s.din.length →
    ∃ t, exec (.process len) s = .next t ∧ t.core.BUF = s.core.BUF ∧ t.core.BUFCNT = 0

/-- R106: for every partition of the data into chunks, absorbing the chunks one `PROCESS` after the other leaves what one
`PROCESS` of all of them leaves, up to stale buffer bytes, and the same digest. -/
def Obligations.ChunkingIsTransparent : Prop :=
  ∀ (s : State) (chunks : List (List Byte)) (rest : List Byte), s.core.BUF.wf = true → s.op = .idle →
    s.din = chunks.flatten ++ rest →
    ∃ t u, execAll (chunks.map fun c => .process c.length) s = .next t ∧
      exec (.process chunks.flatten.length) s = .next u ∧
      t.SameButStale u ∧ t.core.digest = u.core.digest

/-- R35, R121: bytes that arrive while the `PROCESS` waits make no difference: it leaves what it leaves when they are all
offered beforehand, up to stale buffer bytes. -/
def Obligations.LateBytesMakeNoDifference : Prop :=
  ∀ (s : State) (len : Nat) (late : List Byte), s.core.BUF.wf = true → s.rstN = true → s.din.length < len →
    ∃ t u v, exec (.process len) s = .next t ∧ step (t.offerBytes late) = .next u ∧
      exec (.process len) (s.offerBytes late) = .next v ∧ u.SameButStale v

/-! ## DIGEST -/

/-- R108 and the frame of `DIGEST`: it always answers and never changes the live state; a host that accepts gets one
digest more, and from one that does not the digest is withheld until it does. -/
def Obligations.DigestAnswersAndKeepsTheLiveState : Prop :=
  encode .digest = 0xC0000000 ∧
  (∀ s : State, s.doutReady = true →
    ∃ t, exec .digest s = .next t ∧ t.digests = s.digests ++ [doutOf s.core.digest] ∧ t.op = .idle ∧
      t.core = s.core ∧ t.cmds = s.cmds ∧ t.din = s.din ∧ t.rstN = s.rstN ∧ t.doutReady = s.doutReady) ∧
  (∀ s : State, s.doutReady = false →
    ∃ t, exec .digest s = .next t ∧ t.op = .digest (doutOf s.core.digest) ∧ t.digests = s.digests ∧
      t.core = s.core ∧ t.cmds = s.cmds ∧ t.din = s.din ∧ t.rstN = s.rstN ∧ t.doutReady = s.doutReady)

/-- R110: the footer length, its values at the boundaries, its range, and the one or two blocks it fills. -/
def Obligations.FooterLengthFillsOneOrTwoBlocks : Prop :=
  ∀ c : Hasher,
    9 ≤ c.footerLength ∧ c.footerLength ≤ 72 ∧
    (c.BUFCNT.toNat ≤ 55 → c.BUFCNT.toNat + c.footerLength = 64) ∧
    (56 ≤ c.BUFCNT.toNat → c.BUFCNT.toNat + c.footerLength = 128) ∧
    (c.BUFCNT = 0 → c.footerLength = 64) ∧ (c.BUFCNT = 1 → c.footerLength = 63) ∧
    (c.BUFCNT = 55 → c.footerLength = 9) ∧ (c.BUFCNT = 56 → c.footerLength = 72) ∧
    (c.BUFCNT = 57 → c.footerLength = 71) ∧ (c.BUFCNT = 63 → c.footerLength = 65)

/-- R111: `flen` bytes, `0x80` first, the bit length of the live counter (R109) in the last eight, zeros between. -/
def Obligations.FooterLayout : Prop :=
  ∀ c : Hasher,
    c.footer.length = c.footerLength ∧ c.footer.getD 0 0 = 0x80 ∧
    c.footer.drop (c.footerLength - 8) = bytes64 (bitLen c.CNT) ∧
    ∀ i, 1 ≤ i → i < c.footerLength - 8 → c.footer.getD i 1 = 0

/-- R112: the footer completes one block, or two from `BUFCNT` 56 on, and leaves the copy empty. -/
def Obligations.FooterIsFedThroughProcessOnTheCopy : Prop :=
  ∀ c : Hasher, c.BUF.wf = true →
    c.padded.BUFCNT = 0 ∧ c.padded.CNT = add64 c.CNT c.footerLength ∧
    (c.BUFCNT.toNat ≤ 55 → c.padded.H = compress c.H (c.validBytes ++ c.footer)) ∧
    (56 ≤ c.BUFCNT.toNat →
      c.padded.H = compress (compress c.H ((c.validBytes ++ c.footer).take 64)) ((c.validBytes ++ c.footer).drop 64))

/-- R113: the digest is 32 bytes; bytes `4i .. 4i+3` are `BYTES32(H'[i])`. -/
def Obligations.DigestIsTheCopysWordsBigEndian : Prop :=
  ∀ c : Hasher, c.digest.length = 32 ∧
    ∀ i, i < 8 → (c.digest.drop (4 * i)).take 4 = bytes32 (c.padded.H.toList.getD i 0)

/-- R54: `out[i]` is `dout[255-8i : 248-8i]`, and the digest of a hash state is its eight words in a row. -/
def Obligations.DoutLayout : Prop :=
  (∀ (out : List Byte) (i : Nat), out.length = 32 → i < 32 → (doutOf out).extractLsb' (248 - 8 * i) 8 = out.getD i 0) ∧
  (∀ H : Words8, doutOf (digestBytes H) = H.w0 ++ H.w1 ++ H.w2 ++ H.w3 ++ H.w4 ++ H.w5 ++ H.w6 ++ H.w7)

/-- R114: (a) two digests in a row are the same and leave the state as it was; (b) a digest between two `PROCESS` does not
change the digest of the whole; (c) after `RESET` a hasher answers like a new one. -/
def Obligations.DigestIsIdempotentAndInterleaves : Prop :=
  (∀ s : State, s.op = .idle → s.doutReady = true →
    ∃ d t, execAll [.digest, .digest] s = .next t ∧ t = s.setDigests (s.digests ++ [d, d])) ∧
  (∀ (s u : State) (X Y rest rest' : List Byte), s.core.BUF.wf = true → u.core.BUF.wf = true →
    s.core.fresh → u.core.fresh → s.doutReady = true → u.doutReady = true →
    s.din = X ++ Y ++ rest → u.din = X ++ Y ++ rest' →
    ∃ d d' t v, execAll [.process X.length, .digest, .process Y.length, .digest] s = .next t ∧
      t.digests = s.digests ++ [d, d'] ∧
      execAll [.process (X ++ Y).length, .digest] u = .next v ∧ v.digests = u.digests ++ [d']) ∧
  (∀ (s u : State) (X rest rest' : List Byte), s.core.BUF.wf = true → u.core.BUF.wf = true → u.core.fresh →
    s.doutReady = true → u.doutReady = true → s.din = X ++ rest → u.din = X ++ rest' →
    ∃ d t v, execAll [.reset, .process X.length, .digest] s = .next t ∧ t.digests = s.digests ++ [d] ∧
      execAll [.process X.length, .digest] u = .next v ∧ v.digests = u.digests ++ [d])

/-- R116, R149: below 2^61 bytes the digest of a hasher that has absorbed `M` is the SHA-256 digest of `M`. -/
def Obligations.DigestIsSha256OfTheAbsorbedMessage : Prop :=
  ∀ (s : State) (M : List Byte), s.core.BUF.wf = true → s.core.Absorbed M 0 → M.length < 2 ^ 61 → s.doutReady = true →
    ∃ t, exec .digest s = .next t ∧ t.digests = s.digests ++ [doutOf (sha256 M)]

/-- R116: the zeros of the padding are the fewest that make whole blocks, so `sha256` is the function the rule describes. -/
def Obligations.PaddingIsTheShortest : Prop :=
  ∀ M : List Byte, (paddedMessage M).length % 64 = 0 ∧
    ∀ k, (M.length + 1 + k + 8) % 64 = 0 → zeroCount M.length ≤ k

/-- R59, R116: the pseudo-operation `HASH X`, offered to any idle block whatever it has absorbed before, gives the SHA-256
digest of `X` in three steps: the command words are encoded, transferred, decoded and run. That these are three steps is the
model's (log 1): a step is one command transfer with its work, and no number of cycles. Longer inputs, which take several
`PROCESS`, are in `PseudoOperationsOfAnyLength`. -/
def Obligations.HashPseudoOperationGivesSha256 : Prop :=
  ∀ (s : State) (X : List Byte), s.core.BUF.wf = true → s.rstN = true → s.doutReady = true → s.op = .idle →
    s.cmds = [] → s.din = [] → X.length < 2 ^ 30 →
    ∃ t, Host.Core.run Sys2Proof.core 3 (s.issue (Pseudo.hash X).expand) = .next t ∧ t.complete ∧
      t.digests = s.digests ++ [doutOf (sha256 X)]

/-! ## COMPRESS -/

/-- R86, R87: 64 schedule words, the first sixteen loaded big-endian from the block, the others by the recurrence; an
all-zero block gives zeros. -/
def Obligations.ScheduleObeysTheRecurrence : Prop :=
  (∀ block : List Byte, (messageSchedule block).length = 64 ∧
    (∀ i, i < 16 → (messageSchedule block).getD i 0 =
      be32 (block.getD (4 * i) 0) (block.getD (4 * i + 1) 0) (block.getD (4 * i + 2) 0) (block.getD (4 * i + 3) 0)) ∧
    (∀ t, 16 ≤ t → t < 64 → (messageSchedule block).getD t 0 =
      smallSigma1 ((messageSchedule block).getD (t - 2) 0) + (messageSchedule block).getD (t - 7) 0
        + smallSigma0 ((messageSchedule block).getD (t - 15) 0) + (messageSchedule block).getD (t - 16) 0)) ∧
  (∀ t, t < 64 → (messageSchedule (List.replicate 64 0)).getD t 1 = 0)

/-- R88, R89, R90: the working variables start as `H`; round `t` uses `K[t]` and `W[t]`, takes `T1` and `T2` from the old
values, and shifts the window. -/
def Obligations.RoundsShiftTheWindow : Prop :=
  (∀ (H : Words8) (block : List Byte), mixRounds H ((messageSchedule block).take 0) = H) ∧
  (∀ (H v : Words8) (block : List Byte) (t : Nat) (T1 T2 : Word), t < 64 →
    v = mixRounds H ((messageSchedule block).take t) →
    T1 = v.w7 + bigSigma1 v.w4 + ch v.w4 v.w5 v.w6 + roundConstants.getD t 0 + (messageSchedule block).getD t 0 →
    T2 = bigSigma0 v.w0 + maj v.w0 v.w1 v.w2 →
    mixRounds H ((messageSchedule block).take (t + 1)) =
      { w0 := T1 + T2, w1 := v.w0, w2 := v.w1, w3 := v.w2, w4 := v.w3 + T1, w5 := v.w4, w6 := v.w5, w7 := v.w6 }) ∧
  (∀ (H : Words8) (block : List Byte),
    mixRounds H ((messageSchedule block).take 64) = mixRounds H (messageSchedule block))

/-- R92: the new hash state is the old one plus the working variables after the last round, word by word. -/
def Obligations.FeedForwardAddsToTheOldState : Prop :=
  ∀ (H : Words8) (block : List Byte) (i : Nat), i < 8 →
    (compress H block).toList.getD i 0 =
      H.toList.getD i 0 + (mixRounds H (messageSchedule block)).toList.getD i 0

/-- R21, R87: a schedule kept as a window of 16 words gives the same `COMPRESS`. -/
def Obligations.SlidingWindowScheduleAgrees : Prop :=
  ∀ (H : Words8) (block : List Byte), compressWindow H block = compress H block

/-- R91: working variables that stay in their places while the index rotates give the same `COMPRESS`. -/
def Obligations.RotatingIndexAgrees : Prop :=
  ∀ (H : Words8) (block : List Byte), compressRotated H block = compress H block

/-! ## Primitives -/

/-- R66: the rotation by its formula, bit by bit, and its corner cases. -/
def Obligations.RotationMovesEveryBit : Prop :=
  (∀ (x : Word) (n : Nat), 1 ≤ n → n ≤ 31 →
    (rotr x n).toNat = (x.toNat / 2 ^ n + x.toNat * 2 ^ (32 - n)) % 2 ^ 32 ∧
    (∀ i, i < 32 → (rotr x n).getLsbD i = x.getLsbD ((i + n) % 32)) ∧
    rotr 0 n = 0 ∧ rotr 0xffffffff n = 0xffffffff) ∧
  rotr 1 1 = 0x80000000 ∧ rotr 0x80000000 1 = 0x40000000 ∧ rotr 0x12345678 7 = 0xf02468ac

/-- R69, R70: choice and majority, bit by bit, with their corner cases; the two terms of the choice never overlap. -/
def Obligations.ChoiceAndMajorityBitByBit : Prop :=
  (∀ (x y z : Word) (i : Nat), i < 32 →
    (ch x y z).getLsbD i = (if x.getLsbD i then y.getLsbD i else z.getLsbD i) ∧
    (maj x y z).getLsbD i =
      decide (2 ≤ (x.getLsbD i).toNat + (y.getLsbD i).toNat + (z.getLsbD i).toNat)) ∧
  (∀ x y z : Word, ch x y z = (x &&& y) ||| (~~~x &&& z) ∧ ch x y z = (x &&& y) + (~~~x &&& z) ∧
    ch 0 y z = z ∧ ch 0xffffffff y z = y ∧ ch x y y = y ∧
    maj x y z = maj y x z ∧ maj x y z = maj x z y ∧
    maj 0 y z = y &&& z ∧ maj 0xffffffff y z = y ||| z ∧ maj x x z = x)

/-- R71, R72, R73, R74: which bits of the operand each bit of the four sigma functions is the sum of, and the corner cases;
the third term of the small sigmas is a shift with zero fill. -/
def Obligations.SigmaFunctionsTapTheirBits : Prop :=
  (∀ (x : Word) (i : Nat), i < 32 →
    (bigSigma0 x).getLsbD i = ((x.getLsbD ((i + 2) % 32)).xor ((x.getLsbD ((i + 13) % 32)).xor (x.getLsbD ((i + 22) % 32)))) ∧
    (bigSigma1 x).getLsbD i = ((x.getLsbD ((i + 6) % 32)).xor ((x.getLsbD ((i + 11) % 32)).xor (x.getLsbD ((i + 25) % 32)))) ∧
    (smallSigma0 x).getLsbD i =
      ((x.getLsbD ((i + 7) % 32)).xor ((x.getLsbD ((i + 18) % 32)).xor (decide (i + 3 < 32) && x.getLsbD (i + 3)))) ∧
    (smallSigma1 x).getLsbD i =
      ((x.getLsbD ((i + 17) % 32)).xor ((x.getLsbD ((i + 19) % 32)).xor (decide (i + 10 < 32) && x.getLsbD (i + 10))))) ∧
  bigSigma0 0 = 0 ∧ bigSigma0 0xffffffff = 0xffffffff ∧ bigSigma0 1 = 0x40080400 ∧ bigSigma0 0x80000000 = 0x20040200 ∧
  bigSigma1 0 = 0 ∧ bigSigma1 0xffffffff = 0xffffffff ∧ bigSigma1 1 = 0x04200080 ∧ bigSigma1 0x80000000 = 0x02100040 ∧
  smallSigma0 0 = 0 ∧ smallSigma0 0xffffffff = 0x1fffffff ∧ smallSigma0 1 = 0x02004000 ∧
  smallSigma0 0x80000000 = 0x11002000 ∧
  smallSigma1 0 = 0 ∧ smallSigma1 0xffffffff = 0x003fffff ∧ smallSigma1 1 = 0x0000a000 ∧
  smallSigma1 0x80000000 = 0x00205000

/-- R76, R77, R78: the big-endian conversions by value, and that they invert each other. -/
def Obligations.ByteWordConversionsInvert : Prop :=
  (∀ b0 b1 b2 b3 : Byte,
    (be32 b0 b1 b2 b3).toNat = b0.toNat * 2 ^ 24 + b1.toNat * 2 ^ 16 + b2.toNat * 2 ^ 8 + b3.toNat ∧
    bytes32 (be32 b0 b1 b2 b3) = [b0, b1, b2, b3]) ∧
  (∀ w : Word, ∃ b0 b1 b2 b3, bytes32 w = [b0, b1, b2, b3] ∧ be32 b0 b1 b2 b3 = w) ∧
  (∀ w : BitVec 64, (bytes64 w).length = 8 ∧ (bytes64 w).foldl (fun n b => n * 2 ^ 8 + b.toNat) 0 = w.toNat)

/-- R79: the two operations on 64-bit values, by value, with their corner cases. -/
def Obligations.CounterArithmeticWraps : Prop :=
  (∀ (c : BitVec 64) (n : Nat), (add64 c n).toNat = (c.toNat + n) % 2 ^ 64) ∧
  (∀ c : BitVec 64, (bitLen c).toNat = (c.toNat * 8) % 2 ^ 64) ∧
  bitLen 0 = 0 ∧ bitLen (BitVec.ofNat 64 (2 ^ 61 - 1)) = 0xfffffffffffffff8 ∧ bitLen (BitVec.ofNat 64 (2 ^ 61)) = 0 ∧
  add64 (BitVec.ofNat 64 (2 ^ 64 - 1)) 1 = 0 ∧ bitLen 3 = 0x18

/-! ## The whole machine -/

/-- R25: the reset state meets the invariant. -/
def Obligations.ResetMeetsTheInvariant : Prop := State.reset.Inv

/-- R25, R116: after reset the hasher has absorbed the empty message. -/
def Obligations.ResetHasAbsorbedNothing : Prop := State.reset.Tracks []

/-- R15, R19, R50: from every state that meets the invariant, a step leads to one that meets it.
That a waiting `PROCESS` has absorbed the bytes it took, which the second clause counts, is the model's (log 1). -/
def Obligations.StepKeepsTheInvariant : Prop :=
  ∀ s t : State, s.Inv → step s = .next t → t.Inv

/-- R39, R103, R104, R107: from every state that has absorbed `M`, a step leads to a state that has absorbed `M` and the
data bytes the step took, or, after a hardware reset or a `RESET` that a ready block takes, nothing; a `RESET` that only
waits on the command channel loses nothing. What it says of a state inside a waiting `PROCESS` is in the model's terms
(log 1: bytes are absorbed as they come). -/
def Obligations.StepTracksTheMessage : Prop :=
  ∀ (s t : State) (M : List Byte), s.Inv → s.Tracks M → step s = .next t →
    (∃ k, t.Tracks (M ++ s.din.take k) ∧ t.din = s.din.drop k) ∨
    (t.Tracks [] ∧ t.din = s.din ∧
      (s.rstN = false ∨ s.cmdReady = true ∧ ∃ w rest, s.cmds = w :: rest ∧ decode w = .command .reset))

/-- R26, R20: stale buffer bytes never matter: from two states that differ in nothing else, a step gives the same outcome,
up to stale buffer bytes again, so that every digest the host ever gets is the same. -/
def Obligations.StaleBufferBytesNeverMatter : Prop :=
  ∀ s s' : State, s.core.BUF.wf = true → s'.core.BUF.wf = true → s.SameButStale s' →
    (∀ t, step s = .next t → ∃ t', step s' = .next t' ∧ t.SameButStale t') ∧
    (∀ r, step s = .refused r → step s' = .refused r)

/-- R28, R132: a step of one instance leaves every other instance as it is, and what it does depends on no other. -/
def Obligations.InstancesAreIndependent : Prop :=
  (∀ (sys sys' : System) (i j : Nat), sys.stepAt i = .next sys' → i ≠ j → sys'[j]? = sys[j]?) ∧
  (∀ (sys other : System) (i : Nat) (s : State), sys[i]? = some s → other[i]? = some s →
    (∀ sys', sys.stepAt i = .next sys' → ∃ other', other.stepAt i = .next other' ∧ other'[i]? = sys'[i]?))

/-- R59, R106, R116: the pseudo-operations on inputs of any length, offered to an idle block with empty channels. A long
`PROCESS X` leaves what one `PROCESS` of all the bytes leaves, up to stale buffer bytes; `HASH X` gives the SHA-256 digest
of `X` below 2^61 bytes; `NOP` changes nothing. One step for each command is the model's (log 1), and so is the cut of a
long `PROCESS` into parts (log 17). -/
def Obligations.PseudoOperationsOfAnyLength : Prop :=
  (∀ (s : State) (X : List Byte), s.core.BUF.wf = true → s.rstN = true → s.op = .idle → s.cmds = [] → s.din = [] →
    ∃ t u : State, Host.Core.run Sys2Proof.core (Pseudo.process X).expand.length (s.issue (Pseudo.process X).expand) = .next t ∧
      exec (.process X.length) (s.offerBytes X) = .next u ∧ t.complete ∧ t.SameButStale u) ∧
  (∀ (s : State) (X : List Byte), s.core.BUF.wf = true → s.rstN = true → s.doutReady = true → s.op = .idle →
    s.cmds = [] → s.din = [] → X.length < 2 ^ 61 →
    ∃ t : State, Host.Core.run Sys2Proof.core (Pseudo.hash X).expand.length (s.issue (Pseudo.hash X).expand) = .next t ∧
      t.complete ∧ t.digests = s.digests ++ [doutOf (sha256 X)]) ∧
  (∀ s : State, s.rstN = true → s.op = .idle → s.cmds = [] → s.din = [] →
    Host.Core.run Sys2Proof.core Pseudo.nop.expand.length (s.issue Pseudo.nop.expand) = .next s)
end

