-- ==== Sys2Proof/Laws/Blocks.lean ====
section
/-!
SUPPORT. The whole 64-byte pieces of a byte sequence and what `COMPRESS` makes of them: the laws of `blocksOf`, `tailOf`
and `hashBlocks` (Safety.lean).
-/

namespace Sys2Proof.Machine

theorem blocksOf_short {L : List Byte} (h : L.length < 64) : blocksOf L = [] := by
  simp [blocksOf, Nat.div_eq_of_lt h]

theorem tailOf_short {L : List Byte} (h : L.length < 64) : tailOf L = L := by
  simp [tailOf, Nat.div_eq_of_lt h]

theorem hashBlocks_short (H : Words8) {L : List Byte} (h : L.length < 64) : hashBlocks H L = H := by
  simp [hashBlocks, blocksOf_short h]

theorem blocksOf_block_append {B : List Byte} (hB : B.length = 64) (L : List Byte) :
    blocksOf (B ++ L) = B :: blocksOf L := by
  have hlen : (B ++ L).length / 64 = L.length / 64 + 1 := by
    simp only [List.length_append, hB]; omega
  simp only [blocksOf, hlen, List.range_succ_eq_map, List.map_cons, List.map_map]
  congr 1
  · simp [← hB]
  · apply List.map_congr_left
    intro i _
    have : 64 * (i + 1) = B.length + 64 * i := by omega
    simp [Function.comp, Nat.succ_eq_add_one, this]

theorem tailOf_block_append {B : List Byte} (hB : B.length = 64) (L : List Byte) : tailOf (B ++ L) = tailOf L := by
  have hlen : 64 * ((B ++ L).length / 64) = B.length + 64 * (L.length / 64) := by
    simp only [List.length_append, hB]; omega
  simp only [tailOf, hlen, List.drop_append, Nat.add_sub_cancel_left]
  simp

theorem hashBlocks_block_append (H : Words8) {B : List Byte} (hB : B.length = 64) (L : List Byte) :
    hashBlocks H (B ++ L) = hashBlocks (compress H B) L := by
  simp [hashBlocks, blocksOf_block_append hB]

theorem hashBlocks_one (H : Words8) {B : List Byte} (hB : B.length = 64) : hashBlocks H B = compress H B := by
  have := hashBlocks_block_append H hB []
  simpa [hashBlocks_short] using this

theorem tailOf_length (L : List Byte) : (tailOf L).length = L.length % 64 := by
  simp only [tailOf, List.length_drop]; omega

/-- A sequence of at least 64 bytes is one piece and the rest. -/
theorem block_and_rest {L : List Byte} (h : 64 ≤ L.length) : (L.take 64).length = 64 ∧ L = L.take 64 ++ L.drop 64 :=
  ⟨by simp only [List.length_take]; omega, (List.take_append_drop 64 L).symm⟩

/-- Induction over a byte sequence by whole pieces: the shape of every claim about absorbed data. -/
theorem blocks_induction {P : List Byte → Prop} (short : ∀ L, L.length < 64 → P L)
    (piece : ∀ B L, B.length = 64 → P L → P (B ++ L)) (L : List Byte) : P L := by
  induction hn : L.length using Nat.strong_induction_on generalizing L with
  | _ n ih =>
    subst hn
    by_cases h : L.length < 64
    · exact short L h
    · obtain ⟨h1, h2⟩ := block_and_rest (show 64 ≤ L.length by omega)
      rw [h2]
      refine piece _ _ h1 (ih _ ?_ _ rfl)
      simp only [List.length_drop]; omega

/-- Absorbing in two parts: only the bytes after the last whole piece of the first part matter for the second. -/
theorem hashBlocks_append (H : Words8) (L R : List Byte) :
    hashBlocks H (L ++ R) = hashBlocks (hashBlocks H L) (tailOf L ++ R) := by
  revert H
  refine blocks_induction (P := fun L => ∀ H, hashBlocks H (L ++ R) = hashBlocks (hashBlocks H L) (tailOf L ++ R)) ?_ ?_ L
  · intro L h H; rw [hashBlocks_short H h, tailOf_short h]
  · intro B L hB ih H
    rw [List.append_assoc, hashBlocks_block_append H hB, hashBlocks_block_append H hB, tailOf_block_append hB, ih]

theorem tailOf_append (L R : List Byte) : tailOf (L ++ R) = tailOf (tailOf L ++ R) := by
  refine blocks_induction (P := fun L => tailOf (L ++ R) = tailOf (tailOf L ++ R)) ?_ ?_ L
  · intro L h; rw [tailOf_short h]
  · intro B L hB ih; rw [List.append_assoc, tailOf_block_append hB, tailOf_block_append hB, ih]

theorem tailOf_tailOf (L : List Byte) : tailOf (tailOf L) = tailOf L := by
  simpa using (tailOf_append L []).symm

end Sys2Proof.Machine
end

