-- ==== Sys2Proof/Laws/State.lean ====
section
/-!
SUPPORT. One lemma per field per update of Machine/State.lean, true by rfl: later proofs never unfold a record update.
Each proof is written (rfl), so that simp cites the lemma in the proof term and the kernel never compares two records
whose fields hold a `COMPRESS` by unfolding it.
-/

namespace Sys2Proof.Machine

variable (c : Hasher) (s : State)

@[simp] theorem Hasher.setH_H (x : Words8) : (c.setH x).H = x := (rfl)
@[simp] theorem Hasher.setH_BUF (x : Words8) : (c.setH x).BUF = c.BUF := (rfl)
@[simp] theorem Hasher.setH_BUFCNT (x : Words8) : (c.setH x).BUFCNT = c.BUFCNT := (rfl)
@[simp] theorem Hasher.setH_CNT (x : Words8) : (c.setH x).CNT = c.CNT := (rfl)
@[simp] theorem Hasher.setBUF_H (x : Memory) : (c.setBUF x).H = c.H := (rfl)
@[simp] theorem Hasher.setBUF_BUF (x : Memory) : (c.setBUF x).BUF = x := (rfl)
@[simp] theorem Hasher.setBUF_BUFCNT (x : Memory) : (c.setBUF x).BUFCNT = c.BUFCNT := (rfl)
@[simp] theorem Hasher.setBUF_CNT (x : Memory) : (c.setBUF x).CNT = c.CNT := (rfl)
@[simp] theorem Hasher.setBUFCNT_H (x : BitVec 6) : (c.setBUFCNT x).H = c.H := (rfl)
@[simp] theorem Hasher.setBUFCNT_BUF (x : BitVec 6) : (c.setBUFCNT x).BUF = c.BUF := (rfl)
@[simp] theorem Hasher.setBUFCNT_BUFCNT (x : BitVec 6) : (c.setBUFCNT x).BUFCNT = x := (rfl)
@[simp] theorem Hasher.setBUFCNT_CNT (x : BitVec 6) : (c.setBUFCNT x).CNT = c.CNT := (rfl)
@[simp] theorem Hasher.setCNT_H (x : BitVec 64) : (c.setCNT x).H = c.H := (rfl)
@[simp] theorem Hasher.setCNT_BUF (x : BitVec 64) : (c.setCNT x).BUF = c.BUF := (rfl)
@[simp] theorem Hasher.setCNT_BUFCNT (x : BitVec 64) : (c.setCNT x).BUFCNT = c.BUFCNT := (rfl)
@[simp] theorem Hasher.setCNT_CNT (x : BitVec 64) : (c.setCNT x).CNT = x := (rfl)

@[simp] theorem State.setCore_core (x : Hasher) : (s.setCore x).core = x := (rfl)
@[simp] theorem State.setCore_op (x : Hasher) : (s.setCore x).op = s.op := (rfl)
@[simp] theorem State.setCore_cmds (x : Hasher) : (s.setCore x).cmds = s.cmds := (rfl)
@[simp] theorem State.setCore_din (x : Hasher) : (s.setCore x).din = s.din := (rfl)
@[simp] theorem State.setCore_digests (x : Hasher) : (s.setCore x).digests = s.digests := (rfl)
@[simp] theorem State.setCore_rstN (x : Hasher) : (s.setCore x).rstN = s.rstN := (rfl)
@[simp] theorem State.setCore_doutReady (x : Hasher) : (s.setCore x).doutReady = s.doutReady := (rfl)
@[simp] theorem State.setOp_core (x : Op) : (s.setOp x).core = s.core := (rfl)
@[simp] theorem State.setOp_op (x : Op) : (s.setOp x).op = x := (rfl)
@[simp] theorem State.setOp_cmds (x : Op) : (s.setOp x).cmds = s.cmds := (rfl)
@[simp] theorem State.setOp_din (x : Op) : (s.setOp x).din = s.din := (rfl)
@[simp] theorem State.setOp_digests (x : Op) : (s.setOp x).digests = s.digests := (rfl)
@[simp] theorem State.setOp_rstN (x : Op) : (s.setOp x).rstN = s.rstN := (rfl)
@[simp] theorem State.setOp_doutReady (x : Op) : (s.setOp x).doutReady = s.doutReady := (rfl)
@[simp] theorem State.setCmds_core (x : List Word) : (s.setCmds x).core = s.core := (rfl)
@[simp] theorem State.setCmds_op (x : List Word) : (s.setCmds x).op = s.op := (rfl)
@[simp] theorem State.setCmds_cmds (x : List Word) : (s.setCmds x).cmds = x := (rfl)
@[simp] theorem State.setCmds_din (x : List Word) : (s.setCmds x).din = s.din := (rfl)
@[simp] theorem State.setCmds_digests (x : List Word) : (s.setCmds x).digests = s.digests := (rfl)
@[simp] theorem State.setCmds_rstN (x : List Word) : (s.setCmds x).rstN = s.rstN := (rfl)
@[simp] theorem State.setCmds_doutReady (x : List Word) : (s.setCmds x).doutReady = s.doutReady := (rfl)
@[simp] theorem State.setDin_core (x : List Byte) : (s.setDin x).core = s.core := (rfl)
@[simp] theorem State.setDin_op (x : List Byte) : (s.setDin x).op = s.op := (rfl)
@[simp] theorem State.setDin_cmds (x : List Byte) : (s.setDin x).cmds = s.cmds := (rfl)
@[simp] theorem State.setDin_din (x : List Byte) : (s.setDin x).din = x := (rfl)
@[simp] theorem State.setDin_digests (x : List Byte) : (s.setDin x).digests = s.digests := (rfl)
@[simp] theorem State.setDin_rstN (x : List Byte) : (s.setDin x).rstN = s.rstN := (rfl)
@[simp] theorem State.setDin_doutReady (x : List Byte) : (s.setDin x).doutReady = s.doutReady := (rfl)
@[simp] theorem State.setDigests_core (x : List (BitVec 256)) : (s.setDigests x).core = s.core := (rfl)
@[simp] theorem State.setDigests_op (x : List (BitVec 256)) : (s.setDigests x).op = s.op := (rfl)
@[simp] theorem State.setDigests_cmds (x : List (BitVec 256)) : (s.setDigests x).cmds = s.cmds := (rfl)
@[simp] theorem State.setDigests_din (x : List (BitVec 256)) : (s.setDigests x).din = s.din := (rfl)
@[simp] theorem State.setDigests_digests (x : List (BitVec 256)) : (s.setDigests x).digests = x := (rfl)
@[simp] theorem State.setDigests_rstN (x : List (BitVec 256)) : (s.setDigests x).rstN = s.rstN := (rfl)
@[simp] theorem State.setDigests_doutReady (x : List (BitVec 256)) : (s.setDigests x).doutReady = s.doutReady := (rfl)
@[simp] theorem State.setRstN_core (x : Bool) : (s.setRstN x).core = s.core := (rfl)
@[simp] theorem State.setRstN_op (x : Bool) : (s.setRstN x).op = s.op := (rfl)
@[simp] theorem State.setRstN_cmds (x : Bool) : (s.setRstN x).cmds = s.cmds := (rfl)
@[simp] theorem State.setRstN_din (x : Bool) : (s.setRstN x).din = s.din := (rfl)
@[simp] theorem State.setRstN_digests (x : Bool) : (s.setRstN x).digests = s.digests := (rfl)
@[simp] theorem State.setRstN_rstN (x : Bool) : (s.setRstN x).rstN = x := (rfl)
@[simp] theorem State.setRstN_doutReady (x : Bool) : (s.setRstN x).doutReady = s.doutReady := (rfl)
@[simp] theorem State.setDoutReady_core (x : Bool) : (s.setDoutReady x).core = s.core := (rfl)
@[simp] theorem State.setDoutReady_op (x : Bool) : (s.setDoutReady x).op = s.op := (rfl)
@[simp] theorem State.setDoutReady_cmds (x : Bool) : (s.setDoutReady x).cmds = s.cmds := (rfl)
@[simp] theorem State.setDoutReady_din (x : Bool) : (s.setDoutReady x).din = s.din := (rfl)
@[simp] theorem State.setDoutReady_digests (x : Bool) : (s.setDoutReady x).digests = s.digests := (rfl)
@[simp] theorem State.setDoutReady_rstN (x : Bool) : (s.setDoutReady x).rstN = s.rstN := (rfl)
@[simp] theorem State.setDoutReady_doutReady (x : Bool) : (s.setDoutReady x).doutReady = x := (rfl)

/-! Two states with the same fields are the same state. -/

theorem Hasher.ext_fields {c d : Hasher} (h1 : c.H = d.H) (h2 : c.BUF = d.BUF) (h3 : c.BUFCNT = d.BUFCNT)
    (h4 : c.CNT = d.CNT) : c = d := by
  cases c; cases d; simp_all

theorem State.ext_fields {s t : State} (h1 : s.core = t.core) (h2 : s.op = t.op) (h3 : s.cmds = t.cmds)
    (h4 : s.din = t.din) (h5 : s.digests = t.digests) (h6 : s.rstN = t.rstN) (h7 : s.doutReady = t.doutReady) :
    s = t := by
  cases s; cases t; simp_all

end Sys2Proof.Machine
end

