-- ==== Sys2Proof/Laws/Compress.lean ====
section
/-!
SUPPORT. The laws of the message schedule and of the rounds (spec/41_compress.md R86 to R90) that later proofs cite: the
lengths, that extending a schedule keeps its words, and how the rounds split.
-/

namespace Sys2Proof.Machine

@[simp] theorem loadSchedule_length (block : List Byte) : (loadSchedule block).length = 16 := by simp [loadSchedule]

@[simp] theorem extendSchedule_length (n : Nat) (W : List Word) : (extendSchedule n W).length = W.length + n := by
  induction n generalizing W with
  | zero => rfl
  | succ n ih => simp [extendSchedule, ih]; omega

@[simp] theorem messageSchedule_length (block : List Byte) : (messageSchedule block).length = 64 := by
  simp [messageSchedule]

@[simp] theorem roundConstants_length : roundConstants.length = 64 := by decide

/-- Extending a schedule keeps the words it has. -/
theorem extendSchedule_getD_old (n : Nat) (W : List Word) {t : Nat} (h : t < W.length) :
    (extendSchedule n W).getD t 0 = W.getD t 0 := by
  induction n generalizing W with
  | zero => rfl
  | succ n ih =>
    rw [extendSchedule, ih _ (by simp; omega)]
    simp [List.getD, List.getElem?_append_left h]

/-- The first word an extension appends is the next schedule word. -/
theorem extendSchedule_getD_next (n : Nat) (W : List Word) :
    (extendSchedule (n + 1) W).getD W.length 0 = nextScheduleWord W := by
  rw [extendSchedule, extendSchedule_getD_old _ _ (by simp)]
  simp [List.getD]

/-- A schedule extended in two goes. -/
theorem extendSchedule_add (n k : Nat) (W : List Word) :
    extendSchedule (n + k) W = extendSchedule k (extendSchedule n W) := by
  induction n generalizing W with
  | zero => simp [extendSchedule]
  | succ n ih =>
    have : n + 1 + k = (n + k) + 1 := by omega
    rw [this, extendSchedule, ih, extendSchedule]

/-- The first words of an extended schedule are a schedule extended less far. -/
theorem extendSchedule_take (n k : Nat) (W : List Word) :
    (extendSchedule (n + k) W).take (W.length + n) = extendSchedule n W := by
  rw [extendSchedule_add]
  apply List.ext_getElem
  · simp
  · intro i h1 h2
    have h3 : i < (extendSchedule k (extendSchedule n W)).length := by simp at h2 ⊢; omega
    have := extendSchedule_getD_old k (extendSchedule n W) h2
    simp only [List.getD, List.getElem?_eq_getElem h2, List.getElem?_eq_getElem h3, Option.getD_some] at this
    simpa using this

/-- Every appended word is the next schedule word of the words before it (R87). -/
theorem extendSchedule_getD_recurrence (n : Nat) (W : List Word) {t : Nat} (h1 : W.length ≤ t) (h2 : t < W.length + n) :
    (extendSchedule n W).getD t 0 = nextScheduleWord ((extendSchedule n W).take t) := by
  obtain ⟨j, rfl⟩ : ∃ j, t = W.length + j := ⟨t - W.length, by omega⟩
  obtain ⟨k, rfl⟩ : ∃ k, n = j + (k + 1) := ⟨n - j - 1, by omega⟩
  rw [extendSchedule_take, extendSchedule_add]
  have := extendSchedule_getD_next k (extendSchedule j W)
  rwa [extendSchedule_length] at this

/-- The next schedule word in terms of a longer schedule (R87). -/
theorem nextScheduleWord_take (W : List Word) {t : Nat} (h1 : 16 ≤ t) (h2 : t ≤ W.length) :
    nextScheduleWord (W.take t) =
      smallSigma1 (W.getD (t - 2) 0) + W.getD (t - 7) 0 + smallSigma0 (W.getD (t - 15) 0) + W.getD (t - 16) 0 := by
  have hl : (W.take t).length = t := by simp [h2]
  have g : ∀ i, i < t → (W.take t).getD i 0 = W.getD i 0 := by
    intro i hi; simp [List.getD, hi]
  unfold nextScheduleWord
  rw [hl, g _ (by omega), g _ (by omega), g _ (by omega), g _ (by omega)]

end Sys2Proof.Machine
end

