-- ==== Sys2Proof/Laws/Encoding.lean ====
section
/-!
SUPPORT. Command words as numbers: the two fields of a word and the decoder in terms of division and remainder by 2^30
(spec/30_encoding.md R48, R56), and the number a `PROCESS` is encoded as (R52).
-/

namespace Sys2Proof

@[simp] theorem Config.lenWidth_eq : Config.lenWidth = 30 := (rfl)

theorem opField_toNat (w : Word) : (opField w).toNat = w.toNat / 2 ^ 30 := by
  have := w.isLt
  simp only [opField, BitVec.extractLsb'_toNat, Nat.shiftRight_eq_div_pow]
  omega

theorem lenField_toNat (w : Word) : (lenField w).toNat = w.toNat % 2 ^ 30 := by
  simp [lenField, BitVec.extractLsb'_toNat]

/-- The decoder by the value of the word. -/
theorem decode_by_value (w : Word) : decode w =
    if w.toNat / 2 ^ 30 = 1 then (if w.toNat % 2 ^ 30 = 0 then .command .reset else .reserved .resetWithLength)
    else if w.toNat / 2 ^ 30 = 2 then .command (.process (w.toNat % 2 ^ 30))
    else if w.toNat / 2 ^ 30 = 3 then (if w.toNat % 2 ^ 30 = 0 then .command .digest else .reserved .digestWithLength)
    else .reserved .noOperation := by
  have h0 : ∀ k : BitVec 2, (opField w = k) = (w.toNat / 2 ^ 30 = k.toNat) := by
    intro k; rw [← opField_toNat]; simp [BitVec.toNat_eq]
  have h1 : (lenField w = 0) = (w.toNat % 2 ^ 30 = 0) := by
    rw [← lenField_toNat]; simp [BitVec.toNat_eq]
  unfold decode
  simp only [h0, h1, lenField_toNat]
  rfl

theorem encode_process_toNat {len : Nat} (h : len < 2 ^ 30) : (encode (.process len)).toNat = 2 ^ 31 + len := by
  simp only [encode, BitVec.toNat_add, BitVec.toNat_ofNat, BitVec.ofNat_eq_ofNat]
  omega

end Sys2Proof
end

