-- ==== Sys2Proof/Laws/Memory.lean ====
section
/-!
SUPPORT. The laws of `BUF`: a read after a write, every other byte unchanged, the canonical form kept by every memory
operation, and equal contents are equal data.
-/

namespace Sys2Proof.Machine

/-! ## One byte -/

/-- Every listed index is at least `lo`. -/
theorem Memory.read_below {lo : Nat} {m : Memory} (h : Memory.wfFrom lo m = true) {a : Nat} (ha : a < lo) :
    m.read a = Config.unwrittenByte := by
  induction m generalizing lo with
  | nil => rfl
  | cons kv rest ih =>
    obtain ⟨k, b⟩ := kv
    simp only [Memory.wfFrom, Bool.and_eq_true, decide_eq_true_eq] at h
    have hne : k ≠ a := by omega
    simp only [Memory.read, if_neg hne]
    exact ih h.2 (by omega)

theorem Memory.wfFrom_mono {lo lo' : Nat} {m : Memory} (h : Memory.wfFrom lo m = true) (hl : lo' ≤ lo) :
    Memory.wfFrom lo' m = true := by
  cases m with
  | nil => rfl
  | cons kv rest =>
    obtain ⟨k, b⟩ := kv
    simp only [Memory.wfFrom, Bool.and_eq_true, decide_eq_true_eq] at h ⊢
    exact ⟨⟨⟨by omega, h.1.1.2⟩, h.1.2⟩, h.2⟩

/-- A write keeps the canonical form (from any lower bound on the listed indices). -/
theorem Memory.write_wfFrom {lo : Nat} {m : Memory} (h : Memory.wfFrom lo m = true) {a : Nat} (b : Byte)
    (hlo : lo ≤ a) (ha : a < bufBytes) : Memory.wfFrom lo (m.write a b) = true := by
  induction m generalizing lo with
  | nil =>
    simp only [Memory.write]
    split
    · rfl
    · simp [Memory.wfFrom, *]
  | cons kv rest ih =>
    obtain ⟨k, v⟩ := kv
    have hw := h
    simp only [Memory.wfFrom, Bool.and_eq_true, decide_eq_true_eq] at h
    obtain ⟨⟨⟨h1, h2⟩, h3⟩, h4⟩ := h
    simp only [Memory.write]
    split
    · split
      · exact hw
      · simp_all [Memory.wfFrom]
    · split
      · split
        · exact Memory.wfFrom_mono h4 (by omega)
        · simp_all [Memory.wfFrom]
      · simp only [Memory.wfFrom, Bool.and_eq_true, decide_eq_true_eq]
        exact ⟨⟨⟨h1, h2⟩, h3⟩, ih h4 (by omega)⟩

/-- A write inside the 64 bytes keeps the canonical form. -/
theorem Memory.write_wf {m : Memory} (h : m.wf = true) {a : Nat} (b : Byte) (ha : a < bufBytes) :
    (m.write a b).wf = true :=
  Memory.write_wfFrom h b (Nat.zero_le a) ha

/-- What a byte reads as after a write to a memory in canonical form. -/
theorem Memory.read_write_wfFrom {lo : Nat} {m : Memory} (h : Memory.wfFrom lo m = true) (a : Nat) (b : Byte) (x : Nat) :
    (m.write a b).read x = if x = a then b else m.read x := by
  induction m generalizing lo with
  | nil =>
    simp only [Memory.write]
    split
    · simp_all [Memory.read]
    · simp only [Memory.read, eq_comm (a := a)]
  | cons kv rest ih =>
    obtain ⟨k, v⟩ := kv
    simp only [Memory.wfFrom, Bool.and_eq_true, decide_eq_true_eq] at h
    obtain ⟨⟨⟨h1, h2⟩, h3⟩, h4⟩ := h
    simp only [Memory.write]
    split
    · split
      · simp only [Memory.read]
        by_cases hx : x = a
        · have hk : ¬ k = x := by omega
          simp only [if_neg hk, if_pos hx, Memory.read_below h4 (show x < k + 1 by omega)]
          exact Eq.symm ‹_›
        · simp [hx]
      · simp only [Memory.read, eq_comm (a := a)]
    · split
      · subst k
        split
        · by_cases hx : x = a
          · subst hx; simp_all [Memory.read_below h4 (show x < x + 1 by omega)]
          · simp [Memory.read, hx, Ne.symm hx]
        · by_cases hx : x = a
          · subst hx; simp [Memory.read]
          · simp [Memory.read, hx, Ne.symm hx]
      · simp only [Memory.read, ih h4]
        by_cases hk : k = x
        · have : x ≠ a := by omega
          simp [hk, this]
        · simp [hk]

/-- A read after a write to a canonical memory: the byte written at its index, every other byte as before. -/
theorem Memory.read_write {m : Memory} (h : m.wf = true) (a : Nat) (b : Byte) (x : Nat) :
    (m.write a b).read x = if x = a then b else m.read x :=
  Memory.read_write_wfFrom h a b x

/-! ## Runs of bytes -/

@[simp] theorem memRead_length (m : Memory) (addr n : Nat) : (memRead m addr n).length = n := by
  induction n generalizing addr with
  | zero => rfl
  | succ n ih => simp [memRead, ih]

theorem memRead_getElem (m : Memory) (addr n i : Nat) (h : i < (memRead m addr n).length) :
    (memRead m addr n)[i] = m.read (addr + i) := by
  induction n generalizing addr i with
  | zero => simp [memRead] at h
  | succ n ih =>
    cases i with
    | zero => simp [memRead]
    | succ i =>
      simp only [memRead, List.getElem_cons_succ]
      rw [ih]
      congr 1
      omega

theorem memRead_add (m : Memory) (addr n k : Nat) :
    memRead m addr (n + k) = memRead m addr n ++ memRead m (addr + n) k := by
  induction n generalizing addr with
  | zero => simp [memRead]
  | succ n ih =>
    have : n + 1 + k = (n + k) + 1 := by omega
    rw [this]
    simp only [memRead, List.cons_append, ih]
    congr 3
    omega

/-- Two memories that agree on a run of indices read the same there. -/
theorem memRead_congr {m m' : Memory} {addr n : Nat} (h : ∀ i, i < n → m.read (addr + i) = m'.read (addr + i)) :
    memRead m addr n = memRead m' addr n := by
  apply List.ext_getElem
  · simp
  · intro i h1 h2
    rw [memRead_getElem, memRead_getElem]
    exact h i (by simpa using h1)

/-- `MemWrite` inside the 64 bytes keeps the canonical form. -/
theorem memWrite_wf {m : Memory} (h : m.wf = true) {addr : Nat} {s : List Byte} (hs : addr + s.length ≤ bufBytes) :
    (memWrite m addr s).wf = true := by
  induction s generalizing m addr with
  | nil => exact h
  | cons b rest ih =>
    simp only [List.length_cons] at hs
    exact ih (Memory.write_wf h b (by omega)) (by omega)

/-- Everything `MemWrite` does to the bytes of a canonical memory. -/
theorem memWrite_read {m : Memory} (h : m.wf = true) {addr : Nat} {s : List Byte} (hs : addr + s.length ≤ bufBytes)
    (x : Nat) : (memWrite m addr s).read x = if addr ≤ x ∧ x < addr + s.length then s.getD (x - addr) 0 else m.read x := by
  induction s generalizing m addr with
  | nil => simp [memWrite]
  | cons b rest ih =>
    simp only [List.length_cons] at hs
    simp only [memWrite]
    rw [ih (Memory.write_wf h b (by omega)) (by omega), Memory.read_write h]
    by_cases h1 : addr + 1 ≤ x ∧ x < addr + 1 + rest.length
    · have h2 : addr ≤ x ∧ x < addr + (b :: rest).length := by simp only [List.length_cons]; omega
      obtain ⟨j, hj⟩ : ∃ j, x - addr = j + 1 := ⟨x - addr - 1, by omega⟩
      have hj' : x - (addr + 1) = j := by omega
      rw [if_pos h1, if_pos h2, hj, hj']
      rfl
    · by_cases h2 : x = addr
      · subst h2; simp
      · have h3 : ¬ (addr ≤ x ∧ x < addr + (b :: rest).length) := by simp only [List.length_cons]; omega
        simp only [if_neg h1, if_neg h2, if_neg h3]

/-- Reading back what has just been written. -/
theorem memRead_memWrite {m : Memory} (h : m.wf = true) {addr : Nat} {s : List Byte} (hs : addr + s.length ≤ bufBytes) :
    memRead (memWrite m addr s) addr s.length = s := by
  apply List.ext_getElem
  · simp
  · intro i h1 h2
    rw [memRead_getElem, memWrite_read h hs, if_pos (by omega)]
    simp [List.getD, h2]

/-- The bytes before a write and the bytes written, read together. -/
theorem memRead_through_memWrite {m : Memory} (h : m.wf = true) {n : Nat} {s : List Byte} (hs : n + s.length ≤ bufBytes) :
    memRead (memWrite m n s) 0 (n + s.length) = memRead m 0 n ++ s := by
  rw [memRead_add, Nat.zero_add, memRead_memWrite h hs]
  congr 1
  apply memRead_congr
  intro i hi
  rw [memWrite_read h hs, if_neg (by omega)]

/-- Memories in canonical form with the same contents are equal data. -/
theorem Memory.ext_wfFrom {lo : Nat} {m m' : Memory} (h : Memory.wfFrom lo m = true) (h' : Memory.wfFrom lo m' = true)
    (hr : ∀ a, m.read a = m'.read a) : m = m' := by
  induction m generalizing lo m' with
  | nil =>
    cases m' with
    | nil => rfl
    | cons kv rest =>
      obtain ⟨k, v⟩ := kv
      simp only [Memory.wfFrom, Bool.and_eq_true, decide_eq_true_eq] at h'
      have := hr k
      simp_all [Memory.read]
  | cons kv rest ih =>
    obtain ⟨k, v⟩ := kv
    cases m' with
    | nil =>
      simp only [Memory.wfFrom, Bool.and_eq_true, decide_eq_true_eq] at h
      have := hr k
      simp_all [Memory.read]
    | cons kv' rest' =>
      obtain ⟨k', v'⟩ := kv'
      have hw := h
      have hw' := h'
      simp only [Memory.wfFrom, Bool.and_eq_true, decide_eq_true_eq] at h h'
      obtain ⟨⟨⟨_, _⟩, hv⟩, hrest⟩ := h
      obtain ⟨⟨⟨_, _⟩, hv'⟩, hrest'⟩ := h'
      have hkk : k = k' := by
        by_contra hne
        rcases Nat.lt_or_gt_of_ne hne with hlt | hlt
        · have e := hr k
          simp only [Memory.read, if_true, if_neg (show ¬ k' = k by omega)] at e
          rw [Memory.read_below hrest' (by omega)] at e
          exact hv e
        · have e := hr k'
          simp only [Memory.read, if_true, if_neg (show ¬ k = k' by omega)] at e
          rw [Memory.read_below hrest (by omega)] at e
          exact hv' e.symm
      subst hkk
      have hvv : v = v' := by
        have e := hr k
        simpa [Memory.read] using e
      subst hvv
      congr 1
      apply ih hrest hrest'
      intro a
      by_cases ha : k = a
      · subst ha
        rw [Memory.read_below hrest (by omega), Memory.read_below hrest' (by omega)]
      · have e := hr a
        simpa [Memory.read, ha] using e

/-- Memories in canonical form with the same contents are equal data. -/
theorem Memory.ext_wf {m m' : Memory} (h : m.wf = true) (h' : m'.wf = true) (hr : ∀ a, m.read a = m'.read a) : m = m' :=
  Memory.ext_wfFrom h h' hr

end Sys2Proof.Machine
end

