-- ==== Sys2Proof/Laws/Hasher.lean ====
section
/-!
SUPPORT. What the loop of `PROCESS` does, said once (spec/42_hasher.md R104, R107): the hash state, the valid bytes, the
fill count, the counter and the canonical form of the buffer after any byte sequence; and which bytes of the buffer it
leaves alone.
-/

namespace Sys2Proof.Machine

/-! ## The fields of a hasher under the named operations -/

@[simp] theorem Hasher.count_H (c : Hasher) (n : Nat) : (c.count n).H = c.H := (rfl)
@[simp] theorem Hasher.count_BUF (c : Hasher) (n : Nat) : (c.count n).BUF = c.BUF := (rfl)
@[simp] theorem Hasher.count_BUFCNT (c : Hasher) (n : Nat) : (c.count n).BUFCNT = c.BUFCNT := (rfl)
@[simp] theorem Hasher.count_CNT (c : Hasher) (n : Nat) : (c.count n).CNT = add64 c.CNT n := (rfl)
@[simp] theorem Hasher.count_validBytes (c : Hasher) (n : Nat) : (c.count n).validBytes = c.validBytes := (rfl)
@[simp] theorem Hasher.directPass_H (c : Hasher) (d : List Byte) :
    (c.directPass d).H = compress c.H (d.take 64) := by simp only [Hasher.directPass, Hasher.setH_H]
@[simp] theorem Hasher.directPass_BUF (c : Hasher) (d : List Byte) : (c.directPass d).BUF = c.BUF := by
  simp only [Hasher.directPass, Hasher.setH_BUF]
@[simp] theorem Hasher.directPass_BUFCNT (c : Hasher) (d : List Byte) : (c.directPass d).BUFCNT = c.BUFCNT := by
  simp only [Hasher.directPass, Hasher.setH_BUFCNT]
@[simp] theorem Hasher.directPass_CNT (c : Hasher) (d : List Byte) : (c.directPass d).CNT = c.CNT := by
  simp only [Hasher.directPass, Hasher.setH_CNT]
@[simp] theorem Hasher.afterReset_H (c : Hasher) : c.afterReset.H = initialHash := (rfl)
@[simp] theorem Hasher.afterReset_BUF (c : Hasher) : c.afterReset.BUF = c.BUF := (rfl)
@[simp] theorem Hasher.afterReset_BUFCNT (c : Hasher) : c.afterReset.BUFCNT = 0 := (rfl)
@[simp] theorem Hasher.afterReset_CNT (c : Hasher) : c.afterReset.CNT = 0 := (rfl)
@[simp] theorem Hasher.afterReset_validBytes (c : Hasher) : c.afterReset.validBytes = [] := (rfl)

@[simp] theorem Hasher.validBytes_length (c : Hasher) : c.validBytes.length = c.BUFCNT.toNat := by
  simp [Hasher.validBytes]

theorem Hasher.fill_lt (c : Hasher) : c.BUFCNT.toNat < 64 := c.BUFCNT.isLt

/-! ## One pass -/

/-- A buffer-path pass that fills the buffer: one `COMPRESS` on the valid bytes and the first bytes of the data, and an
empty buffer. -/
theorem Hasher.bufferPass_full {c : Hasher} (hb : c.BUF.wf = true) {data : List Byte}
    (h : 64 ≤ c.BUFCNT.toNat + data.length) :
    (c.bufferPass data).H = compress c.H (c.validBytes ++ data.take (64 - c.BUFCNT.toNat)) ∧
    (c.bufferPass data).BUFCNT = 0 ∧ (c.bufferPass data).CNT = c.CNT ∧
    (c.bufferPass data).BUF = memWrite c.BUF c.BUFCNT.toNat (data.take (64 - c.BUFCNT.toNat)) := by
  have hlt := c.fill_lt
  have hn : c.copyCount data.length = 64 - c.BUFCNT.toNat := by simp only [Hasher.copyCount]; omega
  have hsum : c.BUFCNT.toNat + (64 - c.BUFCNT.toNat) = 64 := by omega
  have hl : (data.take (64 - c.BUFCNT.toNat)).length = 64 - c.BUFCNT.toNat := by
    simp only [List.length_take]; omega
  have hr := memRead_through_memWrite hb (n := c.BUFCNT.toNat) (s := data.take (64 - c.BUFCNT.toNat))
    (by rw [hl, hsum]; decide)
  rw [hl, hsum] at hr
  change _ = c.validBytes ++ _ at hr
  simp only [Hasher.bufferPass, hn, if_pos hsum]
  simp [hr]

/-- A buffer-path pass that does not fill the buffer takes all the data. -/
theorem Hasher.bufferPass_partial {c : Hasher} {data : List Byte} (h : c.BUFCNT.toNat + data.length < 64) :
    (c.bufferPass data).H = c.H ∧ (c.bufferPass data).BUFCNT = BitVec.ofNat 6 (c.BUFCNT.toNat + data.length) ∧
    (c.bufferPass data).CNT = c.CNT ∧ (c.bufferPass data).BUF = memWrite c.BUF c.BUFCNT.toNat data := by
  have hn : c.copyCount data.length = data.length := by simp only [Hasher.copyCount]; omega
  simp only [Hasher.bufferPass, hn, if_neg (show ¬ c.BUFCNT.toNat + data.length = 64 by omega), List.take_length]
  simp

/-! ## The loop -/

/-- Everything the loop of `PROCESS` does to a hasher, with the data it absorbs. -/
structure Hasher.AbsorbSpec (c d : Hasher) (data : List Byte) : Prop where
  hash : d.H = hashBlocks c.H (c.validBytes ++ data)
  valid : d.validBytes = tailOf (c.validBytes ++ data)
  fill : d.BUFCNT.toNat = (c.BUFCNT.toNat + data.length) % 64
  count : d.CNT = c.CNT
  buffer : d.BUF.wf = true

theorem Hasher.absorbLoop_spec (passes : Nat) {c : Hasher} (hb : c.BUF.wf = true) {data : List Byte}
    (hp : data.length ≤ passes) : c.AbsorbSpec (Hasher.absorbLoop passes c data) data := by
  have nothing : ∀ c : Hasher, c.BUF.wf = true → c.AbsorbSpec c [] := fun c hb =>
    { hash := by simp [hashBlocks_short c.H (show c.validBytes.length < 64 by simpa using c.fill_lt)]
      valid := by simp [tailOf_short (show c.validBytes.length < 64 by simpa using c.fill_lt)]
      fill := by simp [Nat.mod_eq_of_lt c.fill_lt]
      count := rfl
      buffer := hb }
  induction passes generalizing c data with
  | zero =>
    have : data = [] := List.length_eq_zero_iff.mp (by omega)
    subst this
    exact nothing c hb
  | succ passes ih =>
    have hlt := c.fill_lt
    simp only [Hasher.absorbLoop]
    split
    · rename_i he
      have : data = [] := by simpa using he
      subst this
      exact nothing c hb
    · rename_i he
      have hne : 0 < data.length := List.length_pos_of_ne_nil (by simpa using he)
      split
      · by_cases hfull : 64 ≤ c.BUFCNT.toNat + data.length
        · -- the buffer becomes full
          obtain ⟨h1, h2, h3, h4⟩ := Hasher.bufferPass_full hb hfull
          have hn : c.copyCount data.length = 64 - c.BUFCNT.toNat := by simp only [Hasher.copyCount]; omega
          have hl : (data.take (64 - c.BUFCNT.toNat)).length = 64 - c.BUFCNT.toNat := by
            simp only [List.length_take]; omega
          have hwf : (c.bufferPass data).BUF.wf = true := by
            rw [h4]; exact memWrite_wf hb (by rw [hl]; simp only [bufBytes]; omega)
          have hv : (c.bufferPass data).validBytes = [] := by
            simp [Hasher.validBytes, h2, memRead]
          have hB : (c.validBytes ++ data.take (64 - c.BUFCNT.toNat)).length = 64 := by
            rw [List.length_append, hl, Hasher.validBytes_length]; omega
          have hsplit : c.validBytes ++ data =
              (c.validBytes ++ data.take (64 - c.BUFCNT.toNat)) ++ data.drop (64 - c.BUFCNT.toNat) := by
            rw [List.append_assoc, List.take_append_drop]
          have hrest := ih hwf (data := data.drop (64 - c.BUFCNT.toNat)) (by simp only [List.length_drop]; omega)
          rw [hn]
          exact
            { hash := by rw [hrest.hash, hv, h1, hsplit, hashBlocks_block_append _ hB]; rfl
              valid := by rw [hrest.valid, hv, hsplit, tailOf_block_append hB]; rfl
              fill := by
                rw [hrest.fill, h2]
                simp only [List.length_drop]
                simp only [BitVec.ofNat_eq_ofNat, BitVec.toNat_ofNat]
                omega
              count := by rw [hrest.count, h3]
              buffer := hrest.buffer }
        · -- all the data fits
          obtain ⟨h1, h2, h3, h4⟩ := Hasher.bufferPass_partial (c := c) (data := data) (by omega)
          have hn : c.copyCount data.length = data.length := by simp only [Hasher.copyCount]; omega
          have hf : (c.bufferPass data).BUFCNT.toNat = c.BUFCNT.toNat + data.length := by
            rw [h2, BitVec.toNat_ofNat]; omega
          have hwf : (c.bufferPass data).BUF.wf = true := by
            rw [h4]; exact memWrite_wf hb (by simp only [bufBytes]; omega)
          have hv : (c.bufferPass data).validBytes = c.validBytes ++ data := by
            rw [Hasher.validBytes, hf, h4, memRead_through_memWrite hb (by simp only [bufBytes]; omega)]
            rfl
          have hL : (c.validBytes ++ data).length < 64 := by
            rw [List.length_append, Hasher.validBytes_length]; omega
          have hrest := ih hwf (data := data.drop data.length) (by simp only [List.length_drop]; omega)
          rw [hn]
          simp only [List.drop_length] at hrest ⊢
          exact
            { hash := by
                rw [hrest.hash, hv, h1, List.append_nil, hashBlocks_short _ hL]
              valid := by rw [hrest.valid, hv, List.append_nil]
              fill := by rw [hrest.fill, hf]; simp
              count := by rw [hrest.count, h3]
              buffer := hrest.buffer }
      · -- the direct path
        rename_i hpath
        simp only [Hasher.takesBufferPath, Bool.or_eq_true, decide_eq_true_eq, not_or, not_lt] at hpath
        have h0 : c.BUFCNT.toNat = 0 := by omega
        have hv : c.validBytes = [] := by simp [Hasher.validBytes, h0, memRead]
        have hv' : (c.directPass data).validBytes = [] := by
          simp [Hasher.validBytes, h0, memRead]
        obtain ⟨hB, hsplit⟩ := block_and_rest (L := data) (by omega)
        have hrest := ih (c := c.directPass data) (by rw [Hasher.directPass_BUF]; exact hb) (data := data.drop 64) (by simp only [List.length_drop]; omega)
        exact
          { hash := by
              rw [hrest.hash, hv, hv', List.nil_append, List.nil_append]
              conv_rhs => rw [hsplit, hashBlocks_block_append _ hB]
              rw [Hasher.directPass_H]
            valid := by
              rw [hrest.valid, hv, hv', List.nil_append, List.nil_append]
              conv_rhs => rw [hsplit, tailOf_block_append hB]
            fill := by
              rw [hrest.fill]
              simp only [Hasher.directPass_BUFCNT, List.length_drop]
              omega
            count := by rw [hrest.count, Hasher.directPass_CNT]
            buffer := hrest.buffer }

/-- Absorbing bytes, in full: the spec lemma of the loop of `PROCESS`. -/
theorem Hasher.absorb_spec {c : Hasher} (hb : c.BUF.wf = true) (data : List Byte) : c.AbsorbSpec (c.absorb data) data :=
  Hasher.absorbLoop_spec data.length hb (Nat.le_refl _)

@[simp] theorem Hasher.absorb_nil (c : Hasher) : c.absorb [] = c := rfl

end Sys2Proof.Machine
end

