-- ==== Sys2Proof/Laws/PerInstr.lean ====
section
/-!
SUPPORT. Statements made of every command, one lemma per constructor. `TableRow`: the encoded word of a well-formed
command shows the match value of its row of spec/opcode_table.json under the row's mask (spec/30_encoding.md R49).
-/

namespace Sys2Proof.Laws

/-- The mask column of R49. -/
def rowMask : Instr → Word
  | .reset => 0xFFFFFFFF
  | .process _ => 0xC0000000
  | .digest => 0xFFFFFFFF

/-- The match column of R49. -/
def rowMatch : Instr → Word
  | .reset => 0x40000000
  | .process _ => 0x80000000
  | .digest => 0xC0000000

/-- The encoded word of a well-formed command belongs to its row of the table. -/
def TableRow.Statement (i : Instr) : Prop := i.wf = true → encode i &&& rowMask i = rowMatch i

theorem TableRow.reset : TableRow.Statement .reset := fun _ => by decide

theorem TableRow.digest : TableRow.Statement .digest := fun _ => by decide

theorem TableRow.process (len : Nat) : TableRow.Statement (.process len) := by
  intro h
  simp only [Instr.wf, Config.lenWidth, decide_eq_true_eq] at h
  obtain ⟨x, hx⟩ : ∃ x : BitVec 30, x.toNat = len := ⟨BitVec.ofNat 30 len, by simp; omega⟩
  subst hx
  simp only [encode, rowMask, rowMatch]
  apply BitVec.eq_of_getLsbD_eq
  intro i hi
  have hsum : (0x80000000 : Word) + BitVec.ofNat 32 x.toNat = (2#2 ++ x : BitVec 32) := by
    apply BitVec.eq_of_toNat_eq
    have := x.isLt
    simp only [BitVec.toNat_add, BitVec.toNat_ofNat, BitVec.toNat_append, BitVec.ofNat_eq_ofNat]
    rw [Nat.shiftLeft_eq, Nat.mul_comm, ← Nat.two_pow_add_eq_or_of_lt this]
    omega
  rw [hsum]
  simp only [BitVec.getLsbD_and, BitVec.getLsbD_append, BitVec.ofNat_eq_ofNat]
  by_cases hb : i < 30
  · have : (0xC0000000#32).getLsbD i = false ∧ (0x80000000#32).getLsbD i = false := by
      clear hi hsum; revert i; decide
    rw [this.1, this.2, Bool.and_false]
  · rw [if_neg hb]
    obtain rfl | rfl : i = 30 ∨ i = 31 := by omega
    all_goals decide

end Sys2Proof.Laws
end

