-- ==== Sys2Proof/Laws/Step.lean ====
section
/-!
SUPPORT. What a step can do, said once: the fields of a state after each shared operation, the loop of `PROCESS` on the
counter, and the inversion lemma of `step`.
-/

namespace Sys2Proof.Machine

/-! ## The counter under the loop of PROCESS -/

@[simp] theorem Hasher.bufferPass_CNT (c : Hasher) (d : List Byte) : (c.bufferPass d).CNT = c.CNT := by
  simp only [Hasher.bufferPass]
  split <;> simp only [Hasher.setBUFCNT_CNT, Hasher.setH_CNT, Hasher.setBUF_CNT]

theorem Hasher.absorbLoop_CNT (passes : Nat) (c : Hasher) (d : List Byte) : (Hasher.absorbLoop passes c d).CNT = c.CNT := by
  induction passes generalizing c d with
  | zero => rfl
  | succ passes ih =>
    simp only [Hasher.absorbLoop]
    split
    · rfl
    · split
      · rw [ih, Hasher.bufferPass_CNT]
      · rw [ih, Hasher.directPass_CNT]

/-- Absorbing bytes does not touch the counter (R103 has raised it before). -/
@[simp] theorem Hasher.absorb_CNT (c : Hasher) (d : List Byte) : (c.absorb d).CNT = c.CNT :=
  Hasher.absorbLoop_CNT _ _ _

/-! ## The fields of a state under the shared operations -/

section
variable (s : State) (rem : Nat) (out : BitVec 256)

@[simp] theorem State.takeData_core : (s.takeData rem).core = s.core.absorb (s.din.take rem) := by
  simp only [State.takeData, State.setOp_core, State.setDin_core, State.setCore_core, State.operandBytes]
@[simp] theorem State.takeData_din : (s.takeData rem).din = s.din.drop rem := by
  simp only [State.takeData, State.setOp_din, State.setDin_din, State.surplusBytes]
@[simp] theorem State.takeData_cmds : (s.takeData rem).cmds = s.cmds := by
  simp only [State.takeData, State.setOp_cmds, State.setDin_cmds, State.setCore_cmds]
@[simp] theorem State.takeData_digests : (s.takeData rem).digests = s.digests := by
  simp only [State.takeData, State.setOp_digests, State.setDin_digests, State.setCore_digests]
@[simp] theorem State.takeData_rstN : (s.takeData rem).rstN = s.rstN := by
  simp only [State.takeData, State.setOp_rstN, State.setDin_rstN, State.setCore_rstN]
@[simp] theorem State.takeData_doutReady : (s.takeData rem).doutReady = s.doutReady := by
  simp only [State.takeData, State.setOp_doutReady, State.setDin_doutReady, State.setCore_doutReady]

/-- A `PROCESS` waits exactly when bytes are missing. -/
theorem State.takeData_op :
    (s.takeData rem).op = if s.din.length < rem then .process (rem - s.din.length) else .idle := by
  simp only [State.takeData, State.setOp_op, State.operandBytes, List.length_take]
  by_cases h : s.din.length < rem
  · rw [if_pos (by omega), if_pos h]; congr 2; omega
  · rw [if_neg (by omega), if_neg h]

@[simp] theorem State.offerDigest_core : (s.offerDigest out).core = s.core := by
  simp only [State.offerDigest]; split <;> simp
@[simp] theorem State.offerDigest_cmds : (s.offerDigest out).cmds = s.cmds := by
  simp only [State.offerDigest]; split <;> simp
@[simp] theorem State.offerDigest_din : (s.offerDigest out).din = s.din := by
  simp only [State.offerDigest]; split <;> simp
@[simp] theorem State.offerDigest_rstN : (s.offerDigest out).rstN = s.rstN := by
  simp only [State.offerDigest]; split <;> simp
@[simp] theorem State.offerDigest_doutReady : (s.offerDigest out).doutReady = s.doutReady := by
  simp only [State.offerDigest]; split <;> simp

theorem State.offerDigest_digests :
    (s.offerDigest out).digests = if s.doutReady then s.digests ++ [out] else s.digests := by
  simp only [State.offerDigest]; split <;> simp
theorem State.offerDigest_op : (s.offerDigest out).op = if s.doutReady then .idle else .digest out := by
  simp only [State.offerDigest]; split <;> simp

@[simp] theorem State.hardwareReset_core : s.hardwareReset.core = s.core.afterReset := (rfl)
@[simp] theorem State.hardwareReset_op : s.hardwareReset.op = .idle := (rfl)
@[simp] theorem State.hardwareReset_cmds : s.hardwareReset.cmds = s.cmds := (rfl)
@[simp] theorem State.hardwareReset_din : s.hardwareReset.din = s.din := (rfl)
@[simp] theorem State.hardwareReset_digests : s.hardwareReset.digests = s.digests := (rfl)
@[simp] theorem State.hardwareReset_rstN : s.hardwareReset.rstN = s.rstN := (rfl)
@[simp] theorem State.hardwareReset_doutReady : s.hardwareReset.doutReady = s.doutReady := (rfl)

end

/-! ## The meanings, as equations -/

theorem exec_reset (s : State) : exec .reset s = .next ((s.setCore s.core.afterReset).setOp .idle) := (rfl)
theorem exec_process (len : Nat) (s : State) :
    exec (.process len) s = .next ((s.setCore (s.core.count len)).takeData len) := (rfl)
theorem exec_digest (s : State) : exec .digest s = .next (s.offerDigest (doutOf s.core.digest)) := (rfl)

/-! ## The inversion lemma -/

/-- Everything a step that answers a next state can have done. -/
theorem step_cases {s t : State} (h : step s = .next t) :
    (s.rstN = false ∧ t = s.hardwareReset) ∨
    (s.rstN = true ∧
      ((∃ rem, s.op = .process rem ∧ t = s.takeData rem) ∨
       (∃ out, s.op = .digest out ∧ t = s.offerDigest out) ∨
       (s.op = .idle ∧ s.cmds = [] ∧ t = s) ∨
       (∃ w rest i, s.op = .idle ∧ s.cmds = w :: rest ∧ decode w = .command i ∧ exec i (s.setCmds rest) = .next t))) := by
  simp only [step, State.continueOp] at h
  cases hr : s.rstN with
  | false => left; simpa [hr, eq_comm] using h
  | true =>
    right
    refine ⟨rfl, ?_⟩
    cases ho : s.op with
    | process rem => left; exact ⟨rem, rfl, by simpa [hr, ho, eq_comm] using h⟩
    | digest out => right; left; exact ⟨out, rfl, by simpa [hr, ho, eq_comm] using h⟩
    | idle =>
      right; right
      cases hc : s.cmds with
      | nil => left; exact ⟨rfl, rfl, by simpa [hr, ho, State.takeCommand, hc, eq_comm] using h⟩
      | cons w rest =>
        right
        simp only [hr, ho, if_true, State.takeCommand, hc, runWord] at h
        cases hd : decode w with
        | command i => rw [hd] at h; exact ⟨w, rest, i, rfl, rfl, hd, h⟩
        | reserved why => rw [hd] at h; exact absurd h (by simp)

/-- A step on a block that is ready and is offered a word. -/
theorem step_ready {s : State} (hr : s.rstN = true) (ho : s.op = .idle) {w : Word} {rest : List Word}
    (hc : s.cmds = w :: rest) : step s = runWord w (s.setCmds rest) := by
  simp [step, State.continueOp, State.takeCommand, hr, ho, hc]

end Sys2Proof.Machine
end

