-- ==== Sys2Proof/Machine/Text.lean ====
section
/-!
DEFINITION. The textual form of command sequences, spec/30_encoding.md R58: commands written out, and lines read back. It
is a notation of the spec; the machine does not use it. notes/assumptions/16.md says what R58 leaves open.
-/

namespace Sys2Proof.Machine

/-! ## Writing -/

/-- One hexadecimal digit. -/
def hexDigit (n : Nat) : Char := ['0', '1', '2', '3', '4', '5', '6', '7', '8', '9', 'a', 'b', 'c', 'd', 'e', 'f'].getD n '0'

/-- A byte as two hexadecimal digits. -/
def hexByte (b : Byte) : List Char := [hexDigit (b.toNat / 16), hexDigit (b.toNat % 16)]

/-- A natural number in decimal; `digits` bounds the number of its digits. -/
def decimal (digits n : Nat) : List Char :=
  match digits with
  | 0 => []
  | digits + 1 => if n < 10 then [hexDigit n] else decimal digits (n / 10) ++ [hexDigit (n % 10)]

/-- A command as R58 writes it: `RESET`, `PROCESS <len> : <hex bytes>`, `DIGEST`. -/
def HostCommand.text (c : HostCommand) : List Char :=
  match c.instr with
  | .reset => "RESET".toList
  | .process len => "PROCESS ".toList ++ decimal 10 len ++ " :".toList ++ c.data.flatMap fun b => ' ' :: hexByte b
  | .digest => "DIGEST".toList

/-- The result that R58 writes for a digest that was transferred: `-> <64 hex digits>`, as R54 prints it. DESIGN CHOICE
(notes/assumptions/16.md): R58 does not say where it stands; here it is a text of its own, no part of a command's. -/
def digestText (out : BitVec 256) : List Char :=
  "-> ".toList ++ (List.range 64).map fun i => hexDigit (out.extractLsb' (252 - 4 * i) 4).toNat

/-! ## Reading -/

/-- The double quote, ASCII code 34. -/
def quoteMark : Char := Char.ofNat 34

/-- The value of a hexadecimal digit, of either case. -/
def hexValue (c : Char) : Option Nat :=
  let n := "0123456789abcdef".toList.idxOf c.toLower
  if n < 16 then some n else none

/-- A decimal number, after the value `acc` of the digits already read. -/
def decimalFrom (acc : Nat) (cs : List Char) : Option Nat :=
  match cs with
  | [] => some acc
  | c :: rest => if c.isDigit then decimalFrom (10 * acc + (c.toNat - 48)) rest else none

/-- The number `<len>` of R58: at least one decimal digit. -/
def readDecimal (cs : List Char) : Option Nat := if cs.isEmpty then none else decimalFrom 0 cs

/-- One listed byte: two hexadecimal digits. -/
def readHexByte (cs : List Char) : Option Byte :=
  match cs with
  | [hi, lo] => (hexValue hi).bind fun h => (hexValue lo).map fun l => BitVec.ofNat 8 (16 * h + l)
  | _ => none

/-- The words of a line, separated by spaces; `cur` is the word being read. -/
def splitWords (cur cs : List Char) : List (List Char) :=
  match cs with
  | [] => if cur.isEmpty then [] else [cur]
  | c :: rest =>
    if c = ' ' then (if cur.isEmpty then splitWords [] rest else cur :: splitWords [] rest)
    else splitWords (cur ++ [c]) rest

/-- A line without its comment: up to the first `;` that stands outside a quoted text. -/
def uncomment (quoted : Bool) (cs : List Char) : List Char :=
  match cs with
  | [] => []
  | c :: rest => if c = ';' && !quoted then [] else c :: uncomment (xor quoted (c = quoteMark)) rest

/-- `PROCESS "<ASCII text>"`: "len is the number of characters; bytes are their ASCII codes" (R58). -/
def readQuoted (cs : List Char) : Option HostCommand :=
  let body := cs.takeWhile fun c => c ≠ quoteMark
  if (cs.drop body.length).filter (fun c => c ≠ ' ') = [quoteMark] && body.all (fun c => decide (c.toNat < 128)) then
    some (processOf (body.map fun c => BitVec.ofNat 8 c.toNat))
  else none

/-- `PROCESS <len> : <hex bytes>`, whose `<len>` "must equal the number of bytes listed" (R58). -/
def readListed (len : List Char) (bytes : List (List Char)) : Option HostCommand :=
  (readDecimal len).bind fun n => (bytes.mapM readHexByte).bind fun data =>
    if data.length = n then some ⟨.process n, data⟩ else none

/-- What the words of a line say. DESIGN CHOICE (notes/assumptions/16.md): a result `-> <64 hex digits>` is no command and
is read neither on the `DIGEST` line nor as a line of its own. -/
def readWords (ws : List (List Char)) : Option HostCommand :=
  match ws with
  | [w] =>
    if w = "RESET".toList then some ⟨.reset, []⟩ else if w = "DIGEST".toList then some ⟨.digest, []⟩ else none
  | w :: len :: colon :: bytes => if w = "PROCESS".toList && colon = ":".toList then readListed len bytes else none
  | _ => none

/-- One line of a program (R58): one command, which keeps the data discipline and whose length fits its field; `none` for a
line that is no command. DESIGN CHOICE (notes/assumptions/16.md): one or more spaces stand after `PROCESS`, before a quoted
text as before a length. -/
def readCommand (line : List Char) : Option HostCommand :=
  let cs := (uncomment false line).dropWhile fun c => c = ' '
  let mnemonic := "PROCESS ".toList
  let operand := (cs.drop mnemonic.length).dropWhile fun c => c = ' '
  let read :=
    if cs.take mnemonic.length = mnemonic && operand.head? = some quoteMark then readQuoted operand.tail
    else readWords (splitWords [] cs)
  read.bind fun c => if c.wf then some c else none

/-- A program, "one command per line"; a line with nothing but a comment is passed over. -/
def readProgram (lines : List (List Char)) : Option (List HostCommand) :=
  (lines.filter fun l => (uncomment false l).any fun c => c ≠ ' ').mapM readCommand

end Sys2Proof.Machine
end

