-- ==== Sys2Proof/Tests/Slice0.lean ====
section
/-!
SUPPORT. The model's own tests. Expected values come from spec/95_test_vectors.md (V and P numbers), from the examples of
the rules, or from the encodings of spec/30_encoding.md written out by hand. Then one witness for the hypotheses of every
statement that has any.
-/

namespace Sys2Proof.Tests

open Sys2Proof.Machine

/-! ## Well-formedness: the one check refuses an ill-formed term -/

theorem test_wf_refuses_length_beyond_field : (Instr.process 1073741824).wf = false := by decide
theorem test_wf_admits_longest_length : (Instr.process 1073741823).wf = true := by decide

/-! ## Decoding, words written out from R49 -/

theorem test_decode_reset : decode 0b01000000000000000000000000000000 = .command .reset := by decide
theorem test_decode_process_3 : decode 0b10000000000000000000000000000011 = .command (.process 3) := by decide
theorem test_decode_process_178 : decode 0x800000b2 = .command (.process 178) := by decide
theorem test_decode_digest : decode 0b11000000000000000000000000000000 = .command .digest := by decide
theorem test_decode_idle_bus_is_reserved : decode 0x00000000 = .reserved .noOperation := by decide
theorem test_decode_reset_with_length : decode 0x40000001 = .reserved .resetWithLength := by decide
theorem test_decode_digest_with_length : decode 0xc0000020 = .reserved .digestWithLength := by decide
theorem test_encode_process_60 : encode (.process 60) = 0x8000003c := by decide
theorem test_table_word_decodes : decodeTableWord 32 0x80000003 = some (.process 3) := by decide
theorem test_table_word_reserved : decodeTableWord 32 0 = none := by decide

/-! ## Primitives (V14) -/

theorem test_rotr : rotr 0x12345678 7 = 0xf02468ac ∧ rotr 0x61626380 1 = 0x30b131c0 := by decide
theorem test_ch : ch 0x510e527f 0x9b05688c 0x1f83d9ab = 0x1f85c98c := by decide
theorem test_maj : maj 0x6a09e667 0xbb67ae85 0x3c6ef372 = 0x3a6fe667 := by decide
theorem test_big_sigmas : bigSigma0 0x12345678 = 0x66146474 ∧ bigSigma1 0x12345678 = 0x3561abda := by decide
theorem test_small_sigmas : smallSigma0 0x12345678 = 0xe7fce6ee ∧ smallSigma1 0x12345678 = 0xa1f78649 := by decide
theorem test_be32 : be32 0x61 0x62 0x63 0x80 = 0x61626380 := by decide
theorem test_bytes32 : bytes32 0xba7816bf = [0xba, 0x78, 0x16, 0xbf] := by decide
theorem test_bytes64 : bytes64 0x1c0 = [0, 0, 0, 0, 0, 0, 0x01, 0xc0] := by decide
theorem test_bit_length_wraps : bitLen (BitVec.ofNat 64 (2 ^ 61 + 3)) = 0x18 := by decide

/-! ## The buffer -/

theorem test_mem_write_read_back : memRead (memWrite [] 62 [0x41, 0x42]) 62 2 = [0x41, 0x42] := by decide
theorem test_mem_write_zero_unlists : memWrite [(5, 0x41)] 5 [0x00] = [] := by decide

/-! ## COMPRESS (V10 to V12, V15) -/

/-- The padded block of "abc" (V10). -/
def abcBlock : List Byte := [0x61, 0x62, 0x63, 0x80] ++ List.replicate 59 0x00 ++ [0x18]

/-- The byte pattern `X_n` of spec/95_test_vectors.md. -/
def pattern (n : Nat) : List Byte := (List.range n).map (BitVec.ofNat 8)

theorem test_schedule_abc :
    (messageSchedule abcBlock).getD 19 0 = 0x600003c6 ∧ (messageSchedule abcBlock).getD 63 0 = 0x12b1edeb := by
  decide +kernel

theorem test_first_round_abc : mixRounds initialHash ((messageSchedule abcBlock).take 1) =
    ⟨0x5d6aebcd, 0x6a09e667, 0xbb67ae85, 0x3c6ef372, 0xfa2a4622, 0x510e527f, 0x9b05688c, 0x1f83d9ab⟩ := by
  decide +kernel

theorem test_compress_abc : compress initialHash abcBlock =
    ⟨0xba7816bf, 0x8f01cfea, 0x414140de, 0x5dae2223, 0xb00361a3, 0x96177a9c, 0xb410ff61, 0xf20015ad⟩ := by
  decide +kernel

theorem test_compress_all_ones :
    compress ⟨0xffffffff, 0xffffffff, 0xffffffff, 0xffffffff, 0xffffffff, 0xffffffff, 0xffffffff, 0xffffffff⟩
      (List.replicate 64 0xff) =
    ⟨0x0598127a, 0xaf11706e, 0x77401fff, 0xd730c549, 0x0b84c867, 0xa98c6ca3, 0xd7f3c0f9, 0x06a78b79⟩ := by
  decide +kernel

theorem test_compress_pattern : compress initialHash (pattern 64) =
    ⟨0xfc99a2df, 0x88f42a7a, 0x7bb9d180, 0x33cdc6a2, 0x0256755f, 0x9d5b9a50, 0x44a9cc31, 0x5abe84a7⟩ := by
  decide +kernel

/-! ## The commands, one step each -/

/-- An idle block from reset, with a core, a command word and data bytes offered. -/
def sample (core : Hasher) (w : Word) (din : List Byte) : State :=
  ((State.reset.setCore core).setCmds [w]).setDin din

/-- The core after `PROCESS "abc"` from reset (P1, step 2). -/
def abcCore : Hasher := { H := initialHash, BUF := [(0, 0x61), (1, 0x62), (2, 0x63)], BUFCNT := 3, CNT := 3 }

/-- The core after 60 bytes of the pattern from reset (P3, step 1); the byte 00 is not listed. -/
def sixtyCore : Hasher := { H := initialHash, BUF := memWrite [] 0 (pattern 60), BUFCNT := 60, CNT := 60 }

theorem test_reset_command : step (sample { abcCore with H := ⟨1, 2, 3, 4, 5, 6, 7, 8⟩ } 0x40000000 [0x07]) =
    .next ((sample { abcCore with BUFCNT := 0, CNT := 0 } 0 [0x07]).setCmds []) := rfl

theorem test_process_abc : step (sample State.reset.core 0x80000003 [0x61, 0x62, 0x63]) =
    .next ((sample abcCore 0 []).setCmds []) := rfl

/-- The core a step leaves (for tests on a step that answers a next state). -/
def coreAfter (s : State) : Option Hasher :=
  match step s with
  | .next t => some t.core
  | .fault _ => none
  | .refused _ => none

/-- The digests a step leaves. -/
def digestsAfter (s : State) : List (BitVec 256) :=
  match step s with
  | .next t => t.digests
  | .fault _ => []
  | .refused _ => []

/-- P3, step 2: the buffer path fills and compresses the buffer, then keeps six bytes. -/
theorem test_process_crosses_a_block :
    (coreAfter (sample sixtyCore 0x8000000a ((pattern 70).drop 60))).map (fun c => (c.H, c.BUFCNT, c.CNT, c.validBytes)) =
    some (⟨0xfc99a2df, 0x88f42a7a, 0x7bb9d180, 0x33cdc6a2, 0x0256755f, 0x9d5b9a50, 0x44a9cc31, 0x5abe84a7⟩, 6, 70,
      [0x40, 0x41, 0x42, 0x43, 0x44, 0x45]) := by
  decide +kernel

/-- V20, L = 65: one block by the direct path, one byte left in the buffer. -/
theorem test_process_direct_path :
    (coreAfter (sample State.reset.core 0x80000041 (pattern 65))).map (fun c => (c.H, c.BUF, c.BUFCNT, c.CNT)) =
    some (⟨0xfc99a2df, 0x88f42a7a, 0x7bb9d180, 0x33cdc6a2, 0x0256755f, 0x9d5b9a50, 0x44a9cc31, 0x5abe84a7⟩,
      [(0, 0x40)], 1, 65) := by
  decide +kernel

/-- V1: the digest of the empty message. -/
theorem test_digest_empty : digestsAfter (sample State.reset.core 0xc0000000 []) =
    [0xe3b0c44298fc1c149afbf4c8996fb92427ae41e4649b934ca495991b7852b855] := by
  decide +kernel

/-- V2: the digest of "abc". -/
theorem test_digest_abc : digestsAfter (sample abcCore 0xc0000000 []) =
    [0xba7816bf8f01cfea414140de5dae2223b00361a396177a9cb410ff61f20015ad] := by
  decide +kernel

/-- V20, L = 56: the footer takes two blocks. -/
theorem test_digest_two_block_footer :
    digestsAfter (sample { H := initialHash, BUF := memWrite [] 0 (pattern 56), BUFCNT := 56, CNT := 56 } 0xc0000000 []) =
    [0xda2ae4d6b36748f2a318f23e7ab1dfdf45acdc9d049bd80e59de82a60895f562] := by
  decide +kernel

/-- V25: at 2^64 - 1 bytes the counter wraps. -/
theorem test_counter_wraps :
    (coreAfter (sample { abcCore with BUFCNT := 2, CNT := BitVec.ofNat 64 (2 ^ 64 - 1) } 0x80000001 [0])).map Hasher.CNT =
    some 0 := by
  decide +kernel

/-- V20, L = 55: the footer of nine bytes. -/
theorem test_footer_55 : Hasher.footer { abcCore with BUFCNT := 55, CNT := 55 } =
    [0x80, 0, 0, 0, 0, 0, 0, 0x01, 0xb8] := by decide

/-- The reference digest of Safety.lean on the 56-byte message of V30 (two blocks). -/
theorem test_sha256_two_blocks :
    doutOf (sha256 ("abcdbcdecdefdefgefghfghighijhijkijkljklmklmnlmnomnopnopq".toList.map fun ch => BitVec.ofNat 8 ch.toNat)) =
    0x248d6a61d20638b8e5c026930c3e6039a33ce45964ff2167f6ecedd419db06c1 := by
  decide +kernel

/-- P4 a: a reserved word is refused. -/
theorem test_reserved_word_refused :
    step (sample State.reset.core 0x00000000 []) = .refused (.reservedCommand .noOperation) := rfl

/-- P4 d: three bytes of four: the block is stuck inside the `PROCESS`, and the counter is already 4. -/
theorem test_short_stream_waits : step (sample State.reset.core 0x80000004 [0x61, 0x62, 0x63]) =
    .next (((sample { abcCore with CNT := 4 } 0 []).setCmds []).setOp (.process 1)) := rfl

/-- P4 e: a surplus byte waits on the channel. -/
theorem test_surplus_byte_waits : step (sample State.reset.core 0x80000003 [0x61, 0x62, 0x63, 0x64]) =
    .next ((sample abcCore 0 [0x64]).setCmds []) := rfl

/-- R141: a hardware reset ends a stuck `PROCESS`. -/
theorem test_hardware_reset_ends_stuck_process :
    step ((((sample { abcCore with CNT := 4 } 0 []).setCmds []).setOp (.process 1)).driveReset false) =
    .next (((sample { abcCore with BUFCNT := 0, CNT := 0 } 0 []).setCmds []).driveReset false) := rfl

theorem test_fetch_word_runs_first : step (State.reset.withFetchWord 32 0x40000000) = exec .reset State.reset := rfl

/-- R58: the textual form of P1, step 2. -/
theorem test_text_of_process : (processOf [0x61, 0x62, 0x63]).text = "PROCESS 3 : 61 62 63".toList := by decide

/-- R58: its two examples of a `PROCESS` line, the first with its comment, read as the same command. -/
theorem test_read_listed_bytes :
    readCommand "PROCESS 3 : 61 62 63        ; e.g.  PROCESS 3 : 61 62 63".toList = some ⟨.process 3, [0x61, 0x62, 0x63]⟩ := by
  decide
theorem test_read_quoted_text :
    readCommand ("PROCESS ".toList ++ quoteMark :: "abc".toList ++ [quoteMark]) = some (processOf [0x61, 0x62, 0x63]) := by
  decide

theorem test_read_quoted_text_after_spaces :
    readCommand ("PROCESS   ".toList ++ quoteMark :: "a;c".toList ++ [quoteMark]) = some (processOf [0x61, 0x3b, 0x63]) := by
  decide

/-- R58: a length that differs from the number of bytes listed is no command. -/
theorem test_read_wrong_length : readCommand "PROCESS 4 : 61 62 63".toList = none := by decide
theorem test_read_program :
    readProgram ["RESET".toList, "; a comment".toList, "PROCESS 0 :".toList, "DIGEST ; the end".toList] =
      some [⟨.reset, []⟩, ⟨.process 0, []⟩, ⟨.digest, []⟩] := by decide

theorem test_hash_expands : (Pseudo.hash [0x61]).expand =
    [⟨.reset, []⟩, ⟨.process 1, [0x61]⟩, ⟨.digest, []⟩] := by decide

/-! ## Witnesses: a concrete state and operands for the hypotheses of each statement -/

/-- An idle block with three bytes and a `PROCESS 3` offered. -/
def offered : State := sample State.reset.core 0x80000003 [0x61, 0x62, 0x63]

/-- A block stuck inside a `PROCESS` that needs one byte more (P4 d). -/
def stuckState : State := ((sample { abcCore with CNT := 4 } 0 []).setCmds []).setOp (.process 1)

/-- The longest length of the field, and a word that decodes. -/
theorem witness_EncodeAndDecodeAgree :
    (Instr.process 1073741823).wf = true ∧ decode 0xBFFFFFFF = .command (.process 1073741823) := by decide

/-- A reserved word of each range, at its ends, offered to a ready block. -/
theorem witness_ReservedWordsAreTheThreeRanges :
    (sample abcCore 0x3FFFFFFF []).rstN = true ∧ (sample abcCore 0x3FFFFFFF []).op = .idle ∧
    (sample abcCore 0x3FFFFFFF []).cmds = 0x3FFFFFFF :: [] ∧ decode 0x3FFFFFFF = .reserved .noOperation ∧
    decode 0x40000001 = .reserved .resetWithLength ∧ decode 0x7FFFFFFF = .reserved .resetWithLength ∧
    decode 0xC0000001 = .reserved .digestWithLength ∧ decode 0xFFFFFFFF = .reserved .digestWithLength := by decide

theorem witness_StepRunsTheOfferedCommand :
    offered.rstN = true ∧ offered.op = .idle ∧ offered.cmds = 0x80000003 :: [] ∧
    decode 0x80000003 = .command (.process 3) := by decide

theorem witness_IdleBlockHoldsItsState :
    State.reset.rstN = true ∧ State.reset.op = .idle ∧ State.reset.cmds = [] := by decide

/-- A step that takes a command; for each clause: a busy block, an idle one, and data that is taken. -/
theorem witness_ChannelsAreConsumedInOrder :
    step offered = .next ((sample abcCore 0 []).setCmds []) ∧
    step stuckState = .next stuckState ∧ stuckState.cmdReady = false := ⟨rfl, rfl, rfl⟩

/-- A step that transfers a waiting digest. -/
theorem witness_OnlyDigestTransfersADigest :
    step (State.reset.setOp (.digest 5)) = .next (State.reset.setDigests [5]) := rfl

/-- A digest of "abc" that waits for the host, with a `RESET` queued behind it. -/
def resetQueued : State := ((sample abcCore 0x40000000 []).setOp (.digest 5)).driveDoutReady false

/-- A step that raises the counter, one that clears it, and one that keeps it while a `RESET` waits. -/
theorem witness_CounterChangesOnlyByProcessAndReset :
    step offered = .next ((sample abcCore 0 []).setCmds []) ∧
    step (sample abcCore 0x40000000 []) = .next ((sample { abcCore with BUFCNT := 0, CNT := 0 } 0 []).setCmds []) ∧
    resetQueued.cmdReady = false ∧ step resetQueued = .next resetQueued :=
  ⟨rfl, rfl, rfl, rfl⟩

/-- One byte missing; a waiting `PROCESS` that gets too few, exactly enough and too many bytes; a stuck block. -/
theorem witness_ShortStreamLeavesProcessWaiting :
    (offered.rstN = true ∧ offered.din.length < 4) ∧
    (stuckState.rstN = true ∧ stuckState.op = .process 1 ∧ stuckState.din.length < 1) ∧
    ((stuckState.offerBytes [0x64]).rstN = true ∧ (stuckState.offerBytes [0x64]).op = .process 1 ∧
      1 ≤ (stuckState.offerBytes [0x64]).din.length) ∧
    1 ≤ (stuckState.offerBytes [0x64, 0x65]).din.length := by decide

theorem witness_stuck : stuckState.stuck := ⟨rfl, ⟨1, by decide, rfl⟩, rfl⟩

theorem witness_HardwareResetAbandonsTheOperation :
    (stuckState.driveReset false).rstN = false ∧ stuckState.stuck := ⟨rfl, witness_stuck⟩

/-- A block that is not ready, and its step. -/
theorem witness_HardwareResetEqualsResetCommand : stuckState.cmdReady = false ∧ step stuckState = .next stuckState :=
  ⟨rfl, rfl⟩

/-- A waiting digest, with a host that does not accept it and one that does. -/
theorem witness_OfferedDigestIsHeldUntilAccepted :
    (State.reset.setOp (.digest 5)).rstN = true ∧ (State.reset.setOp (.digest 5)).op = .digest 5 ∧
    (State.reset.setOp (.digest 5)).doutReady = true ∧
    ((State.reset.setOp (.digest 5)).driveDoutReady false).doutReady = false := by decide

theorem witness_ResetCommandRestoresTheFreshState : State.reset.core.fresh ∧ State.reset.op = .idle :=
  ⟨⟨rfl, rfl, rfl⟩, rfl⟩

/-- All the bytes offered, at both ends of the range; also the premises on the buffer. -/
theorem witness_ProcessCountsAndCompletes : 3 ≤ offered.din.length ∧ 0 ≤ offered.din.length := by decide

theorem witness_ProcessPostState : offered.core.BUF.wf = true ∧ 3 ≤ offered.din.length := by decide

theorem witness_ZeroLengthProcessChangesNothing : offered.op = .idle := rfl

/-- A byte before, in and after the stored ones, for a `PROCESS` that does not fill the buffer and for one that does. -/
theorem witness_ProcessStoresOnlyWhereR104Says :
    abcCore.BUF.wf = true ∧ (3 ≤ (sample abcCore 0 [1, 2, 3]).din.length) ∧
    ¬ abcCore.storesTo 3 2 ∧ abcCore.storesTo 3 3 ∧ abcCore.storesTo 3 5 ∧ ¬ abcCore.storesTo 3 6 ∧
    abcCore.storesTo 62 63 ∧ abcCore.storesTo 62 0 ∧ ¬ abcCore.storesTo 62 1 ∧ ¬ abcCore.storesTo 62 64 ∧
    abcCore.BUFCNT.toNat + 3 < 64 := by
  simp [Hasher.storesTo, abcCore, sample]; decide

theorem witness_DirectPathLeavesTheBufferAlone :
    (sample State.reset.core 0 (pattern 64)).core.BUFCNT = 0 ∧ 64 % 64 = 0 ∧
    64 ≤ (sample State.reset.core 0 (pattern 64)).din.length := by decide

theorem witness_ChunkingIsTransparent :
    offered.core.BUF.wf = true ∧ offered.op = .idle ∧
    offered.din = [[0x61], [], [0x62]].flatten ++ [0x63] := by decide

theorem witness_LateBytesMakeNoDifference :
    offered.core.BUF.wf = true ∧ offered.rstN = true ∧ offered.din.length < 4 := by decide

theorem witness_DigestAnswersAndKeepsTheLiveState :
    offered.doutReady = true ∧ (offered.driveDoutReady false).doutReady = false := by decide

/-- The fill counts at the boundaries of the two footer forms. -/
theorem witness_FooterLengthFillsOneOrTwoBlocks :
    ({ abcCore with BUFCNT := 55 } : Hasher).BUFCNT.toNat ≤ 55 ∧
    56 ≤ ({ abcCore with BUFCNT := 56 } : Hasher).BUFCNT.toNat := by decide

theorem witness_FooterLayout : 1 ≤ 1 ∧ 1 < abcCore.footerLength - 8 := by decide

theorem witness_FooterIsFedThroughProcessOnTheCopy :
    abcCore.BUF.wf = true ∧ abcCore.BUFCNT.toNat ≤ 55 ∧ sixtyCore.BUF.wf = true ∧ 56 ≤ sixtyCore.BUFCNT.toNat := by
  decide

theorem witness_DigestIsTheCopysWordsBigEndian : 7 < 8 := by decide

theorem witness_DoutLayout : (pattern 32).length = 32 ∧ 31 < 32 := by decide

/-- The layout of `dout` by value (R54, V2). -/
theorem test_dout_layout :
    (doutOf (pattern 32)).extractLsb' 248 8 = 0x00 ∧ (doutOf (pattern 32)).extractLsb' 0 8 = 0x1f ∧
    doutOf (digestBytes initialHash) =
      0x6a09e667bb67ae853c6ef372a54ff53a510e527f9b05688c1f83d9ab5be0cd19 := by decide +kernel

/-- A fresh block with "abc" split in two, and another one with a byte more behind it. -/
theorem witness_DigestIsIdempotentAndInterleaves :
    (offered.op = .idle ∧ offered.doutReady = true) ∧ offered.core.BUF.wf = true ∧ offered.core.fresh ∧
    (sample State.reset.core 0 [0x61, 0x62, 0x63, 0x64]).core.fresh ∧
    offered.din = [0x61] ++ [0x62, 0x63] ++ [] ∧
    (sample State.reset.core 0 [0x61, 0x62, 0x63, 0x64]).din = [0x61] ++ [0x62, 0x63] ++ [0x64] :=
  ⟨⟨rfl, rfl⟩, rfl, ⟨rfl, rfl, rfl⟩, ⟨rfl, rfl, rfl⟩, rfl, rfl⟩

theorem witness_Absorbed : abcCore.Absorbed [0x61, 0x62, 0x63] 0 := ⟨rfl, rfl, rfl, rfl⟩

theorem witness_DigestIsSha256OfTheAbsorbedMessage :
    (sample abcCore 0 []).core.BUF.wf = true ∧ (sample abcCore 0 []).core.Absorbed [0x61, 0x62, 0x63] 0 ∧
    [0x61, 0x62, 0x63].length < 2 ^ 61 ∧ (sample abcCore 0 []).doutReady = true :=
  ⟨rfl, witness_Absorbed, by decide, rfl⟩

/-- Number of zeros at the boundaries: 55 bytes need none, 56 need 63. -/
theorem witness_PaddingIsTheShortest :
    zeroCount 55 = 0 ∧ zeroCount 56 = 63 ∧ ((pattern 55).length + 1 + 0 + 8) % 64 = 0 := by decide

theorem witness_HashPseudoOperationGivesSha256 :
    (State.reset.setCore abcCore).core.BUF.wf = true ∧ (State.reset.setCore abcCore).rstN = true ∧
    (State.reset.setCore abcCore).doutReady = true ∧ (State.reset.setCore abcCore).op = .idle ∧
    (State.reset.setCore abcCore).cmds = [] ∧ (State.reset.setCore abcCore).din = [] ∧
    [(0x61 : Byte)].length < 2 ^ 30 := by decide

/-- Indices at the ends of both clauses. -/
theorem witness_ScheduleObeysTheRecurrence : 0 < 16 ∧ 15 < 16 ∧ (16 ≤ 16 ∧ 16 < 64) ∧ (16 ≤ 63 ∧ 63 < 64) := by decide

/-- The first round: the values `v`, `T1` and `T2` of the rule's example. -/
theorem witness_RoundsShiftTheWindow : 0 < 64 ∧
    initialHash = mixRounds initialHash ((messageSchedule abcBlock).take 0) ∧
    (0x54da50e8 : Word) = initialHash.w7 + bigSigma1 initialHash.w4 + ch initialHash.w4 initialHash.w5 initialHash.w6
      + roundConstants.getD 0 0 + (messageSchedule abcBlock).getD 0 0 ∧
    (0x08909ae5 : Word) = bigSigma0 initialHash.w0 + maj initialHash.w0 initialHash.w1 initialHash.w2 := by
  decide +kernel

theorem witness_FeedForwardAddsToTheOldState : 7 < 8 := by decide

theorem witness_RotationMovesEveryBit : (1 ≤ 1 ∧ 1 ≤ 31) ∧ (1 ≤ 31 ∧ 31 ≤ 31) ∧ 31 < 32 := by decide

theorem witness_ChoiceAndMajorityBitByBit : 31 < 32 := by decide

theorem witness_SigmaFunctionsTapTheirBits : 31 < 32 := by decide

/-- The invariant holds of a stuck block, and it makes a step. -/
theorem witness_StepKeepsTheInvariant : stuckState.Inv ∧ step (stuckState.offerBytes [0x64]) =
    .next ((((sample { abcCore with BUF := abcCore.BUF ++ [(3, 0x64)], BUFCNT := 4, CNT := 4 } 0 []).setCmds [])).setOp .idle) :=
  ⟨⟨rfl, rfl, by intro rem h; cases h; decide⟩, rfl⟩

/-- A block stuck inside a `PROCESS`, and one with a `RESET` queued behind a waiting digest. -/
theorem witness_StepTracksTheMessage :
    (stuckState.Inv ∧ stuckState.Tracks [0x61, 0x62, 0x63] ∧ step stuckState = .next stuckState) ∧
    (resetQueued.Inv ∧ resetQueued.Tracks [0x61, 0x62, 0x63] ∧ step resetQueued = .next resetQueued) :=
  ⟨⟨witness_StepKeepsTheInvariant.1, ⟨rfl, rfl, rfl, rfl⟩, rfl⟩,
    ⟨⟨rfl, rfl, by intro rem h; cases h⟩, ⟨rfl, rfl, rfl, rfl⟩, rfl⟩⟩

/-- Two hashers that differ in the stale byte 7. -/
theorem witness_StaleBufferBytesNeverMatter :
    offered.core.BUF.wf = true ∧ (offered.setCore (State.reset.core.setBUF [(7, 0x99)])).core.BUF.wf = true ∧
    offered.SameButStale (offered.setCore (State.reset.core.setBUF [(7, 0x99)])) ∧
    offered ≠ offered.setCore (State.reset.core.setBUF [(7, 0x99)]) :=
  ⟨rfl, rfl, ⟨⟨rfl, rfl, rfl, rfl⟩, rfl, rfl, rfl, rfl, rfl, rfl⟩, by decide⟩

theorem witness_InstancesAreIndependent :
    System.stepAt [State.reset, offered] 0 = .next [State.reset, offered] ∧ (0 : Nat) ≠ 1 ∧
    ([State.reset, offered] : System)[0]? = some State.reset ∧ ([State.reset] : System)[0]? = some State.reset :=
  ⟨rfl, by decide, rfl, rfl⟩

/-- An idle block with empty channels, and an input too long for one `PROCESS`. -/
theorem witness_PseudoOperationsOfAnyLength :
    ((State.reset.setCore abcCore).core.BUF.wf = true ∧ (State.reset.setCore abcCore).rstN = true ∧
      (State.reset.setCore abcCore).doutReady = true ∧ (State.reset.setCore abcCore).op = .idle ∧
      (State.reset.setCore abcCore).cmds = [] ∧ (State.reset.setCore abcCore).din = []) ∧
    (List.replicate (2 ^ 30) (0x61 : Byte)).length < 2 ^ 61 := by
  refine ⟨by decide, ?_⟩
  rw [List.length_replicate]
  decide

end Sys2Proof.Tests
end

section
/-!
PROOF. Which bytes of `BUF` a `PROCESS` stores to (spec/42_hasher.md R104): the three forms of `Hasher.storesTo`, the two
paths of a pass as equations of the loop, and the frame of the loop on the buffer.
-/

namespace Sys2Proof.Machine

/-! ## The stored indices, by how far the data reaches -/

/-- Data that does not reach the end of the block goes behind the valid bytes. -/
theorem Hasher.storesTo_of_fits {c : Hasher} {len : Nat} (h : c.BUFCNT.toNat + len < 64) (a : Nat) :
    c.storesTo len a ↔ c.BUFCNT.toNat ≤ a ∧ a < c.BUFCNT.toNat + len := by
  simp only [Hasher.storesTo, if_pos h]

/-- Data that reaches the end of the block fills up a buffer that holds bytes, and its rest goes to the front. -/
theorem Hasher.storesTo_of_fills {c : Hasher} {len : Nat} (h : 64 ≤ c.BUFCNT.toNat + len) (a : Nat) :
    c.storesTo len a ↔ (0 < c.BUFCNT.toNat ∧ c.BUFCNT.toNat ≤ a ∧ a < 64) ∨ a < (c.BUFCNT.toNat + len) % 64 := by
  simp only [Hasher.storesTo, if_neg (Nat.not_lt.mpr h)]

/-- With an empty buffer only the bytes beyond the whole blocks are stored. -/
theorem Hasher.storesTo_of_empty {c : Hasher} (h : c.BUFCNT.toNat = 0) (len a : Nat) :
    c.storesTo len a ↔ a < len % 64 := by
  by_cases hlen : c.BUFCNT.toNat + len < 64
  · rw [Hasher.storesTo_of_fits hlen]; omega
  · rw [Hasher.storesTo_of_fills (by omega), h, Nat.zero_add]; omega

/-! ## The loop of R104, one equation per path -/

@[simp] theorem Hasher.absorbLoop_nil (passes : Nat) (c : Hasher) : Hasher.absorbLoop passes c [] = c := by
  cases passes <;> rfl

theorem Hasher.takesBufferPath_iff (c : Hasher) (data : List Byte) :
    c.takesBufferPath data = true ↔ 0 < c.BUFCNT.toNat ∨ data.length < 64 := by
  simp only [Hasher.takesBufferPath, Bool.or_eq_true, decide_eq_true_eq]

theorem Hasher.copyCount_of_fits {c : Hasher} {rem : Nat} (h : c.BUFCNT.toNat + rem < 64) : c.copyCount rem = rem := by
  simp only [Hasher.copyCount]; omega

theorem Hasher.copyCount_of_fills {c : Hasher} {rem : Nat} (h : 64 ≤ c.BUFCNT.toNat + rem) :
    c.copyCount rem = 64 - c.BUFCNT.toNat := by
  simp only [Hasher.copyCount]; omega

theorem Hasher.absorbLoop_bufferPath (passes : Nat) {c : Hasher} {data : List Byte} (hd : data ≠ [])
    (h : 0 < c.BUFCNT.toNat ∨ data.length < 64) :
    Hasher.absorbLoop (passes + 1) c data =
      Hasher.absorbLoop passes (c.bufferPass data) (data.drop (c.copyCount data.length)) := by
  rw [Hasher.absorbLoop, if_neg (by simpa using hd), if_pos ((c.takesBufferPath_iff data).mpr h)]

theorem Hasher.absorbLoop_directPath (passes : Nat) {c : Hasher} {data : List Byte} (h0 : c.BUFCNT.toNat = 0)
    (h : 64 ≤ data.length) :
    Hasher.absorbLoop (passes + 1) c data = Hasher.absorbLoop passes (c.directPass data) (data.drop 64) := by
  have hd : data ≠ [] := List.ne_nil_of_length_pos (by omega)
  have hpath : ¬ c.takesBufferPath data = true := by rw [Hasher.takesBufferPath_iff]; omega
  rw [Hasher.absorbLoop, if_neg (by simpa using hd), if_neg hpath]

/-! ## The buffer under the loop -/

/-- Data that does not fill the buffer: the loop is one `MemWrite` behind the valid bytes. -/
theorem Hasher.absorbLoop_BUF_of_fits {passes : Nat} {c : Hasher} {data : List Byte} (hp : data.length ≤ passes)
    (h : c.BUFCNT.toNat + data.length < 64) :
    (Hasher.absorbLoop passes c data).BUF = memWrite c.BUF c.BUFCNT.toNat data := by
  by_cases hd : data = []
  · subst hd; rw [Hasher.absorbLoop_nil]; rfl
  · obtain ⟨k, rfl⟩ : ∃ k, passes = k + 1 :=
      Nat.exists_eq_add_one.mpr (Nat.lt_of_lt_of_le (List.length_pos_of_ne_nil hd) hp)
    obtain ⟨-, -, -, hbuf⟩ := Hasher.bufferPass_partial h
    rw [Hasher.absorbLoop_bufferPath k hd (.inr (by omega)), Hasher.copyCount_of_fits h, List.drop_length,
      Hasher.absorbLoop_nil, hbuf]

/-- The run of bytes a filling pass stores ends where the buffer ends. -/
theorem Hasher.fill_add_take_length {c : Hasher} {data : List Byte} (h : 64 ≤ c.BUFCNT.toNat + data.length) :
    c.BUFCNT.toNat + (data.take (64 - c.BUFCNT.toNat)).length = bufBytes := by
  have hlt := c.fill_lt
  simp only [List.length_take, bufBytes]; omega

theorem Hasher.bufferPass_wf_of_fills {c : Hasher} (hb : c.BUF.wf = true) {data : List Byte}
    (h : 64 ≤ c.BUFCNT.toNat + data.length) : (c.bufferPass data).BUF.wf = true := by
  obtain ⟨-, -, -, hbuf⟩ := Hasher.bufferPass_full hb h
  rw [hbuf]
  exact memWrite_wf hb (Hasher.fill_add_take_length h).le

/-- A pass that fills the buffer leaves the bytes in front of the old fill count, and all beyond the buffer, alone. -/
theorem Hasher.bufferPass_read_of_fills {c : Hasher} (hb : c.BUF.wf = true) {data : List Byte}
    (h : 64 ≤ c.BUFCNT.toNat + data.length) {a : Nat} (ha : ¬ (c.BUFCNT.toNat ≤ a ∧ a < bufBytes)) :
    (c.bufferPass data).BUF.read a = c.BUF.read a := by
  have hend := Hasher.fill_add_take_length h
  obtain ⟨-, -, -, hbuf⟩ := Hasher.bufferPass_full hb h
  rw [hbuf, memWrite_read hb hend.le, hend, if_neg ha]

/-- The frame of the loop on the buffer: only the bytes `Hasher.storesTo` names change. -/
theorem Hasher.absorbLoop_read_of_not_storesTo (passes : Nat) {c : Hasher} (hb : c.BUF.wf = true) {data : List Byte}
    (hp : data.length ≤ passes) {a : Nat} (ha : ¬ c.storesTo data.length a) :
    (Hasher.absorbLoop passes c data).BUF.read a = c.BUF.read a := by
  induction passes generalizing c data with
  | zero => rfl
  | succ passes ih =>
    have hlt := c.fill_lt
    by_cases hfits : c.BUFCNT.toNat + data.length < 64
    · rw [Hasher.storesTo_of_fits hfits] at ha
      rw [Hasher.absorbLoop_BUF_of_fits hp hfits, memWrite_read hb (by simp only [bufBytes]; omega), if_neg ha]
    · have hfills : 64 ≤ c.BUFCNT.toNat + data.length := Nat.not_lt.mp hfits
      rw [Hasher.storesTo_of_fills hfills] at ha
      by_cases h0 : c.BUFCNT.toNat = 0
      · have hrest := ih (c := c.directPass data) (data := data.drop 64) (by rwa [Hasher.directPass_BUF])
          (by simp only [List.length_drop]; omega)
          (by rw [Hasher.storesTo_of_empty (by rwa [Hasher.directPass_BUFCNT])]; simp only [List.length_drop]; omega)
        rw [Hasher.absorbLoop_directPath passes h0 (by omega), hrest, Hasher.directPass_BUF]
      · have hd : data ≠ [] := List.ne_nil_of_length_pos (by omega)
        obtain ⟨-, hempty, -, -⟩ := Hasher.bufferPass_full hb hfills
        have hread := Hasher.bufferPass_read_of_fills hb hfills (a := a) (by simp only [bufBytes]; omega)
        have hrest := ih (data := data.drop (64 - c.BUFCNT.toNat)) (Hasher.bufferPass_wf_of_fills hb hfills)
          (by simp only [List.length_drop]; omega)
          (by rw [Hasher.storesTo_of_empty (by rw [hempty]; rfl)]; simp only [List.length_drop]; omega)
        rw [Hasher.absorbLoop_bufferPath passes hd (.inl (by omega)), Hasher.copyCount_of_fills hfills, hrest, hread]

theorem Hasher.absorb_read_of_not_storesTo {c : Hasher} (hb : c.BUF.wf = true) {data : List Byte} {a : Nat}
    (ha : ¬ c.storesTo data.length a) : (c.absorb data).BUF.read a = c.BUF.read a :=
  Hasher.absorbLoop_read_of_not_storesTo data.length hb (Nat.le_refl _) ha

/-- Data that does not fill the buffer stands behind the valid bytes afterwards. -/
theorem Hasher.absorb_read_of_fits {c : Hasher} (hb : c.BUF.wf = true) {data : List Byte}
    (h : c.BUFCNT.toNat + data.length < 64) {j : Nat} (hj : j < data.length) :
    (c.absorb data).BUF.read (c.BUFCNT.toNat + j) = data.getD j 0 := by
  rw [Hasher.absorb, Hasher.absorbLoop_BUF_of_fits (Nat.le_refl _) h,
    memWrite_read hb (by simp only [bufBytes]; omega), if_pos (by omega), Nat.add_sub_cancel_left]

/-! ## The statement -/

/-- Settles O20: the frame of the loop on `BUF`, and the one `MemWrite` it is when the data does not fill the buffer. -/
theorem processStoresOnlyWhereR104Says : Obligations.ProcessStoresOnlyWhereR104Says := by
  intro s len hb hlen
  have hl : (s.din.take len).length = len := List.length_take_of_le hlen
  refine ⟨_, exec_process len s, fun a ha => ?_, fun hfits j hj => ?_⟩ <;>
    simp only [State.takeData_core, State.setCore_core, State.setCore_din]
  · exact Hasher.absorb_read_of_not_storesTo (c := s.core.count len) hb (by rwa [hl])
  · exact Hasher.absorb_read_of_fits (c := s.core.count len) hb (by rwa [hl]) (by rwa [hl])

end Sys2Proof.Machine
end

section
/-!
PROOF. `step` as an equation per case of the block (spec/30_encoding.md R47, spec/60_exceptions.md R134, R141), and that
the decoder answers only commands that fit their field (R50).
-/

namespace Sys2Proof.Machine

theorem decode_command_wf {w : Word} {i : Instr} (h : decode w = .command i) : i.wf = true := by
  cases i with
  | reset => rfl
  | digest => rfl
  | process len =>
    have hlen : len = w.toNat % 2 ^ 30 := by
      rw [decode_by_value] at h
      split_ifs at h
      · simp at h
      · simpa [eq_comm] using h
      · simp at h
    rw [hlen, Instr.wf, decide_eq_true_eq, Config.lenWidth_eq]
    exact Nat.mod_lt _ (by decide)

theorem State.cmdReady_iff (s : State) : s.cmdReady = true ↔ s.rstN = true ∧ s.op = .idle := by
  simp only [State.cmdReady, Bool.and_eq_true, decide_eq_true_eq]

theorem step_of_rstN_low {s : State} (hr : s.rstN = false) : step s = .next s.hardwareReset := by
  simp [step, State.continueOp, hr]

theorem step_of_process {s : State} (hr : s.rstN = true) {rem : Nat} (ho : s.op = .process rem) :
    step s = .next (s.takeData rem) := by
  simp [step, State.continueOp, hr, ho]

theorem step_of_digest {s : State} (hr : s.rstN = true) {out : BitVec 256} (ho : s.op = .digest out) :
    step s = .next (s.offerDigest out) := by
  simp [step, State.continueOp, hr, ho]

theorem step_of_no_command {s : State} (hr : s.rstN = true) (ho : s.op = .idle) (hc : s.cmds = []) :
    step s = .next s := by
  simp [step, State.continueOp, State.takeCommand, hr, ho, hc]

theorem step_of_command {s : State} (hr : s.rstN = true) (ho : s.op = .idle) {w : Word} {rest : List Word}
    (hc : s.cmds = w :: rest) {i : Instr} (hd : decode w = .command i) : step s = exec i (s.setCmds rest) := by
  rw [step_ready hr ho hc, runWord, hd]

theorem step_of_reserved {s : State} (hr : s.rstN = true) (ho : s.op = .idle) {w : Word} {rest : List Word}
    (hc : s.cmds = w :: rest) {why : ReservedWord} (hd : decode w = .reserved why) :
    step s = .refused (.reservedCommand why) := by
  rw [step_ready hr ho hc, runWord, hd]

end Sys2Proof.Machine
end

section
/-!
PROOF. The invariant of the machine (spec/10_state.md R15, R19, spec/30_encoding.md R50). Its part about the hasher is
`Hasher.Counted`; each operation on a hasher moves the number of bytes that are counted and not absorbed yet, and each
operation on a state keeps that number and the operation in progress in step.
-/

namespace Sys2Proof.Machine

/-! ## The hasher -/

/-- The buffer is in canonical form, and the counter runs `pending` bytes ahead of the fill count modulo 64 (R19). -/
structure Hasher.Counted (c : Hasher) (pending : Nat) : Prop where
  buffer : c.BUF.wf = true
  count : (c.BUFCNT.toNat + pending) % 64 = c.CNT.toNat % 64

theorem State.inv_iff (s : State) : s.Inv ↔
    s.core.Counted s.op.pending ∧ ∀ rem, s.op = .process rem → 0 < rem ∧ rem < 2 ^ Config.lenWidth :=
  ⟨fun h => ⟨⟨h.buffer, h.count⟩, h.pending⟩, fun ⟨hc, hp⟩ => ⟨hc.buffer, hc.count, hp⟩⟩

theorem Hasher.counted_afterReset {c : Hasher} (hb : c.BUF.wf = true) : c.afterReset.Counted 0 := ⟨hb, rfl⟩

/-- `PROCESS` announces its bytes: the counter runs ahead by their number (R103). -/
theorem Hasher.Counted.announce {c : Hasher} (h : c.Counted 0) (len : Nat) : (c.count len).Counted len where
  buffer := h.buffer
  count := by
    have hcount := h.count
    simp only [Hasher.count_BUFCNT, Hasher.count_CNT, add64, BitVec.toNat_add, BitVec.toNat_ofNat]
    omega

/-- Absorbed bytes are no longer pending (R104). -/
theorem Hasher.Counted.absorb {c : Hasher} {data : List Byte} {rem : Nat} (h : c.Counted (data.length + rem)) :
    (c.absorb data).Counted rem where
  buffer := (Hasher.absorb_spec h.buffer data).buffer
  count := by
    have hcount := h.count
    rw [(Hasher.absorb_spec h.buffer data).fill, Hasher.absorb_CNT]
    omega

/-! ## The operations on a state -/

theorem State.takeData_pending (s : State) (rem : Nat) : (s.takeData rem).op.pending = rem - s.din.length := by
  rw [State.takeData_op]
  split
  · rfl
  · simp only [Op.pending]; omega

theorem State.inv_takeData {s : State} {rem : Nat} (h : s.core.Counted rem) (hrem : rem < 2 ^ Config.lenWidth) :
    (s.takeData rem).Inv := by
  rw [State.inv_iff, State.takeData_core, State.takeData_pending]
  have hlen : (s.din.take rem).length + (rem - s.din.length) = rem := by simp only [List.length_take]; omega
  refine ⟨Hasher.Counted.absorb (by rwa [hlen]), fun r hr => ?_⟩
  rw [State.takeData_op] at hr
  split at hr
  · simp only [Op.process.injEq] at hr; omega
  · exact absurd hr (by simp)

theorem State.inv_offerDigest {s : State} (h : s.core.Counted 0) (out : BitVec 256) : (s.offerDigest out).Inv := by
  rw [State.inv_iff, State.offerDigest_core, State.offerDigest_op]
  split <;> exact ⟨h, fun _ hr => by simp at hr⟩

theorem State.inv_of_idle {s : State} (h : s.core.Counted 0) (ho : s.op = .idle) : s.Inv := by
  rw [State.inv_iff, ho]
  exact ⟨h, fun _ hr => by simp at hr⟩

/-- Every command that fits its field keeps the invariant. -/
theorem exec_inv {i : Instr} (hi : i.wf = true) {s t : State} (h : s.core.Counted 0) (hexec : exec i s = .next t) :
    t.Inv := by
  cases i with
  | reset =>
    rw [exec_reset, Host.Outcome.next.injEq] at hexec
    subst hexec
    exact State.inv_of_idle (Hasher.counted_afterReset h.buffer) rfl
  | process len =>
    rw [exec_process, Host.Outcome.next.injEq] at hexec
    subst hexec
    exact State.inv_takeData (h.announce len) (by simpa only [Instr.wf, decide_eq_true_eq] using hi)
  | digest =>
    rw [exec_digest, Host.Outcome.next.injEq] at hexec
    subst hexec
    exact State.inv_offerDigest h _

/-! ## The statements -/

/-- Settles O46: each thing a step can do keeps the invariant. -/
theorem stepKeepsTheInvariant : Obligations.StepKeepsTheInvariant := by
  intro s t hinv hstep
  obtain ⟨hcounted, hpending⟩ := s.inv_iff.mp hinv
  obtain ⟨-, rfl⟩ | ⟨-, ⟨rem, ho, rfl⟩ | ⟨out, ho, rfl⟩ | ⟨-, -, rfl⟩ | ⟨w, rest, i, ho, -, hdec, hexec⟩⟩ :=
    step_cases hstep
  · exact State.inv_of_idle (Hasher.counted_afterReset hcounted.buffer) rfl
  · rw [ho] at hcounted
    exact State.inv_takeData hcounted (hpending rem ho).2
  · rw [ho] at hcounted
    exact State.inv_offerDigest hcounted out
  · exact hinv
  · rw [ho] at hcounted
    exact exec_inv (decode_command_wf hdec) (s := s.setCmds rest) hcounted hexec

/-- Settles O44: an empty buffer, a zero counter and no operation in progress. -/
theorem resetMeetsTheInvariant : Obligations.ResetMeetsTheInvariant :=
  State.inv_of_idle ⟨rfl, rfl⟩ rfl

/-- Settles O45: the empty message has no whole piece and no tail. -/
theorem resetHasAbsorbedNothing : Obligations.ResetHasAbsorbedNothing where
  hash := (hashBlocks_short initialHash (by decide)).symm
  valid := (tailOf_short (by decide)).symm
  fill := rfl
  count := rfl

end Sys2Proof.Machine
end

section
/-!
PROOF. Stale buffer bytes never matter (spec/10_state.md R20, R26): every operation takes hashers, and states, that differ
at most in stale bytes to ones that differ at most in stale bytes. Where bytes are absorbed this follows from
`Hasher.absorb_spec`, which speaks of the valid bytes only.
-/

namespace Sys2Proof.Machine

/-! ## Hashers -/

/-- A reset leaves nothing but stale bytes of what was before. -/
theorem Hasher.afterReset_sameButStale (c d : Hasher) : c.afterReset.SameButStale d.afterReset := ⟨rfl, rfl, rfl, rfl⟩

section
variable {c d : Hasher} (h : c.SameButStale d)
include h

theorem Hasher.count_sameButStale (len : Nat) : (c.count len).SameButStale (d.count len) where
  hash := h.hash
  fill := h.fill
  count := by rw [Hasher.count_CNT, Hasher.count_CNT, h.count]
  valid := h.valid

theorem Hasher.absorb_sameButStale (hc : c.BUF.wf = true) (hd : d.BUF.wf = true) (data : List Byte) :
    (c.absorb data).SameButStale (d.absorb data) := by
  have hc' := Hasher.absorb_spec hc data
  have hd' := Hasher.absorb_spec hd data
  exact
    { hash := by rw [hc'.hash, hd'.hash, h.hash, h.valid]
      fill := BitVec.eq_of_toNat_eq (by rw [hc'.fill, hd'.fill, h.fill])
      count := by rw [hc'.count, hd'.count, h.count]
      valid := by rw [hc'.valid, hd'.valid, h.valid] }

theorem Hasher.footer_eq_of_sameButStale : c.footer = d.footer := by
  simp only [Hasher.footer, Hasher.footerLength, h.fill, h.count]

theorem Hasher.digest_eq_of_sameButStale (hc : c.BUF.wf = true) (hd : d.BUF.wf = true) : c.digest = d.digest := by
  have hpadded : c.padded.SameButStale d.padded := by
    rw [Hasher.padded, Hasher.padded, Hasher.footer_eq_of_sameButStale h]
    exact Hasher.absorb_sameButStale (Hasher.count_sameButStale h _) hc hd _
  rw [Hasher.digest, Hasher.digest, hpadded.hash]

end

/-! ## States -/

section
variable {s s' : State} (h : s.SameButStale s')
include h

theorem State.setCore_sameButStale {c d : Hasher} (hcd : c.SameButStale d) :
    (s.setCore c).SameButStale (s'.setCore d) :=
  ⟨hcd, h.op, h.cmds, h.din, h.digests, h.rstN, h.doutReady⟩

theorem State.setCmds_sameButStale (rest : List Word) : (s.setCmds rest).SameButStale (s'.setCmds rest) :=
  ⟨h.core, h.op, rfl, h.din, h.digests, h.rstN, h.doutReady⟩

theorem State.setOp_sameButStale (op : Op) : (s.setOp op).SameButStale (s'.setOp op) :=
  ⟨h.core, rfl, h.cmds, h.din, h.digests, h.rstN, h.doutReady⟩

theorem State.hardwareReset_sameButStale : s.hardwareReset.SameButStale s'.hardwareReset :=
  State.setOp_sameButStale (State.setCore_sameButStale h (Hasher.afterReset_sameButStale _ _)) _

theorem State.takeData_sameButStale (hb : s.core.BUF.wf = true) (hb' : s'.core.BUF.wf = true) (rem : Nat) :
    (s.takeData rem).SameButStale (s'.takeData rem) where
  core := by simpa only [State.takeData_core, h.din] using Hasher.absorb_sameButStale h.core hb hb' _
  op := by simp only [State.takeData_op, h.din]
  cmds := by simpa only [State.takeData_cmds] using h.cmds
  din := by simp only [State.takeData_din, h.din]
  digests := by simpa only [State.takeData_digests] using h.digests
  rstN := by simpa only [State.takeData_rstN] using h.rstN
  doutReady := by simpa only [State.takeData_doutReady] using h.doutReady

theorem State.offerDigest_sameButStale (out : BitVec 256) : (s.offerDigest out).SameButStale (s'.offerDigest out) where
  core := by simpa only [State.offerDigest_core] using h.core
  op := by simp only [State.offerDigest_op, h.doutReady]
  cmds := by simpa only [State.offerDigest_cmds] using h.cmds
  din := by simpa only [State.offerDigest_din] using h.din
  digests := by simp only [State.offerDigest_digests, h.doutReady, h.digests]
  rstN := by simpa only [State.offerDigest_rstN] using h.rstN
  doutReady := by simpa only [State.offerDigest_doutReady] using h.doutReady

theorem exec_sameButStale (hb : s.core.BUF.wf = true) (hb' : s'.core.BUF.wf = true) (i : Instr) :
    ∃ t t', exec i s = .next t ∧ exec i s' = .next t' ∧ t.SameButStale t' := by
  cases i with
  | reset =>
    exact ⟨_, _, exec_reset s, exec_reset s',
      State.setOp_sameButStale (State.setCore_sameButStale h (Hasher.afterReset_sameButStale _ _)) _⟩
  | process len =>
    exact ⟨_, _, exec_process len s, exec_process len s',
      State.takeData_sameButStale (State.setCore_sameButStale h (Hasher.count_sameButStale h.core len)) hb hb' len⟩
  | digest =>
    refine ⟨_, _, exec_digest s, exec_digest s', ?_⟩
    rw [Hasher.digest_eq_of_sameButStale h.core hb hb']
    exact State.offerDigest_sameButStale h _

/-- The two steps answer next states that differ at most in stale bytes, or the same refusal. -/
theorem step_sameButStale (hb : s.core.BUF.wf = true) (hb' : s'.core.BUF.wf = true) :
    (∃ t t', step s = .next t ∧ step s' = .next t' ∧ t.SameButStale t') ∨
    ∃ r, step s = .refused r ∧ step s' = .refused r := by
  cases hr : s.rstN with
  | false =>
    exact .inl ⟨_, _, step_of_rstN_low hr, step_of_rstN_low (h.rstN ▸ hr), State.hardwareReset_sameButStale h⟩
  | true =>
    have hr' : s'.rstN = true := h.rstN ▸ hr
    cases ho : s.op with
    | process rem =>
      exact .inl ⟨_, _, step_of_process hr ho, step_of_process hr' (h.op ▸ ho),
        State.takeData_sameButStale h hb hb' rem⟩
    | digest out =>
      exact .inl ⟨_, _, step_of_digest hr ho, step_of_digest hr' (h.op ▸ ho), State.offerDigest_sameButStale h out⟩
    | idle =>
      have ho' : s'.op = .idle := h.op ▸ ho
      cases hc : s.cmds with
      | nil => exact .inl ⟨_, _, step_of_no_command hr ho hc, step_of_no_command hr' ho' (h.cmds ▸ hc), h⟩
      | cons w rest =>
        have hc' : s'.cmds = w :: rest := h.cmds ▸ hc
        cases hd : decode w with
        | command i =>
          rw [step_of_command hr ho hc hd, step_of_command hr' ho' hc' hd]
          exact .inl (exec_sameButStale (State.setCmds_sameButStale h rest) hb hb' i)
        | reserved why => exact .inr ⟨_, step_of_reserved hr ho hc hd, step_of_reserved hr' ho' hc' hd⟩

end

/-! ## The statement -/

/-- Settles O48: the two steps of `step_sameButStale`, read from the first one's outcome. -/
theorem staleBufferBytesNeverMatter : Obligations.StaleBufferBytesNeverMatter := by
  intro s s' hb hb' h
  obtain ⟨u, u', hu, hu', hsame⟩ | ⟨q, hq, hq'⟩ := step_sameButStale h hb hb'
  · refine ⟨fun t ht => ⟨u', hu', ?_⟩, fun r hr => absurd (hu.symm.trans hr) (by simp)⟩
    obtain rfl : u = t := Host.Outcome.next.inj (hu.symm.trans ht)
    exact hsame
  · refine ⟨fun t ht => absurd (hq.symm.trans ht) (by simp), fun r hr => ?_⟩
    rw [hq', ← hq, hr]

end Sys2Proof.Machine
end

section
/-!
PROOF. The counter along a step (spec/10_state.md R18), the registers after reset and the frame of `RESET` (R25, R101).
-/

namespace Sys2Proof.Machine

/-- What each command makes of the counter. -/
theorem exec_CNT {i : Instr} {s t : State} (h : exec i s = .next t) :
    t.core.CNT = match i with
      | .reset => 0
      | .process len => add64 s.core.CNT len
      | .digest => s.core.CNT := by
  cases i with
  | reset =>
    rw [exec_reset, Host.Outcome.next.injEq] at h
    simp only [← h, State.setOp_core, State.setCore_core, Hasher.afterReset_CNT]
  | process len =>
    rw [exec_process, Host.Outcome.next.injEq] at h
    simp only [← h, State.takeData_core, State.setCore_core, Hasher.absorb_CNT, Hasher.count_CNT]
  | digest =>
    rw [exec_digest, Host.Outcome.next.injEq] at h
    simp only [← h, State.offerDigest_core]

/-- Settles O9: waits leave the counter alone, and of the commands only `RESET` and `PROCESS` write it. -/
theorem counterChangesOnlyByProcessAndReset : Obligations.CounterChangesOnlyByProcessAndReset := by
  intro s t hstep
  obtain ⟨hr, rfl⟩ | ⟨hr, ⟨rem, -, rfl⟩ | ⟨out, -, rfl⟩ | ⟨-, -, rfl⟩ | ⟨w, rest, i, ho, hc, hdec, hexec⟩⟩ :=
    step_cases hstep
  · exact .inr (.inl ⟨rfl, .inl hr⟩)
  · left; rw [State.takeData_core, Hasher.absorb_CNT]
  · left; rw [State.offerDigest_core]
  · exact .inl rfl
  · have hready := s.cmdReady_iff.mpr ⟨hr, ho⟩
    have hcnt := exec_CNT hexec
    cases i with
    | reset => exact .inr (.inl ⟨hcnt, .inr ⟨hready, w, rest, hc, hdec⟩⟩)
    | process len => exact .inr (.inr ⟨w, rest, len, hready, hc, hdec, hcnt⟩)
    | digest => exact .inl hcnt

/-- Settles O14: the fields of `State.reset` and the outputs they give. -/
theorem resetStateHasTheSpecifiedValues : Obligations.ResetStateHasTheSpecifiedValues :=
  ⟨rfl, rfl, rfl, rfl, rfl, rfl, rfl⟩

/-- Settles O16: `RESET` sets the core, whose buffer it keeps, and the operation. -/
theorem resetCommandFrame : Obligations.ResetCommandFrame :=
  fun s => ⟨_, exec_reset s, rfl, rfl, rfl, rfl, rfl, fun _ => rfl⟩

end Sys2Proof.Machine
end

section
/-!
PROOF. Instances are independent (spec/10_state.md R28): a step of a system is a step of one of its blocks, put back in
its place.
-/

namespace Sys2Proof.Machine

theorem System.stepAt_of_next {sys : System} {i : Nat} {s t : State} (hs : sys[i]? = some s) (h : step s = .next t) :
    sys.stepAt i = .next (sys.set i t) := by
  simp only [System.stepAt, hs, h]

/-- A system that steps to a next one has no block `i`, or one that steps to its next state. -/
theorem System.stepAt_cases {sys sys' : System} {i : Nat} (h : sys.stepAt i = .next sys') :
    (sys[i]? = none ∧ sys' = sys) ∨ ∃ s t, sys[i]? = some s ∧ step s = .next t ∧ sys' = sys.set i t := by
  cases hs : sys[i]? with
  | none =>
    simp only [System.stepAt, hs, Host.Outcome.next.injEq] at h
    exact .inl ⟨rfl, h.symm⟩
  | some s =>
    cases ht : step s with
    | next t =>
      rw [System.stepAt_of_next hs ht, Host.Outcome.next.injEq] at h
      exact .inr ⟨s, t, rfl, ht, h.symm⟩
    | fault r => cases r
    | refused r => simp [System.stepAt, hs, ht] at h

/-- Settles O49: block `i` is replaced by its own next state and no other is touched. -/
theorem instancesAreIndependent : Obligations.InstancesAreIndependent := by
  constructor
  · intro sys sys' i j h hij
    obtain ⟨-, rfl⟩ | ⟨s, t, -, -, rfl⟩ := System.stepAt_cases h
    · rfl
    · exact List.getElem?_set_ne hij
  · intro sys other i s hs hother sys' h
    obtain ⟨hnone, -⟩ | ⟨s', t, hs', ht, rfl⟩ := System.stepAt_cases h
    · rw [hs] at hnone; exact absurd hnone (by simp)
    · obtain rfl : s = s' := Option.some.inj (hs.symm.trans hs')
      refine ⟨_, System.stepAt_of_next hother ht, ?_⟩
      rw [List.getElem?_set_self (List.getElem?_eq_some_iff.mp hother).1,
        List.getElem?_set_self (List.getElem?_eq_some_iff.mp hs).1]

end Sys2Proof.Machine
end

section
/-!
PROOF. The message schedule as a window of 16 words (spec/10_state.md R21, spec/41_compress.md R87). The window is always
the last 16 words of a schedule that grows by one word a round; a schedule that grows for all 64 rounds has 16 words more
than the rounds use.
-/

namespace Sys2Proof.Machine

/-- The last 16 words of a schedule. -/
def scheduleWindow (W : List Word) : List Word := W.drop (W.length - 16)

theorem scheduleWindow_getD (W : List Word) (i : Nat) :
    (scheduleWindow W).getD i 0 = W.getD (W.length - 16 + i) 0 := by
  simp only [scheduleWindow, List.getD, List.getElem?_drop]

/-- Appending the next schedule word slides the window on by one word, and the word is the one the window gives. -/
theorem scheduleWindow_append_next {W : List Word} (h : 16 ≤ W.length) :
    scheduleWindow (W ++ [nextScheduleWord W]) = (scheduleWindow W).tail ++
      [smallSigma1 ((scheduleWindow W).getD 14 0) + (scheduleWindow W).getD 9 0
        + smallSigma0 ((scheduleWindow W).getD 1 0) + (scheduleWindow W).getD 0 0] := by
  have hnext : smallSigma1 ((scheduleWindow W).getD 14 0) + (scheduleWindow W).getD 9 0
      + smallSigma0 ((scheduleWindow W).getD 1 0) + (scheduleWindow W).getD 0 0 = nextScheduleWord W := by
    have hback : ∀ i j, i + j = 16 → W.length - 16 + i = W.length - j := by omega
    simp only [scheduleWindow_getD, nextScheduleWord, hback 14 2 rfl, hback 9 7 rfl, hback 1 15 rfl, hback 0 16 rfl]
  have hdrop : (W ++ [nextScheduleWord W]).length - 16 = W.length - 16 + 1 := by
    rw [List.length_append, List.length_singleton]; omega
  rw [hnext, scheduleWindow, hdrop, List.drop_append_of_le_length (by omega), scheduleWindow, List.tail_drop]

/-- The part of a growing schedule from the window on begins with the window's first word. -/
theorem drop_extendSchedule_succ (n : Nat) {W : List Word} (h : 16 ≤ W.length) :
    (extendSchedule (n + 1) W).drop (W.length - 16) =
      (scheduleWindow W).getD 0 0 :: (extendSchedule (n + 1) W).drop (W.length - 16 + 1) := by
  have hlt : W.length - 16 < (extendSchedule (n + 1) W).length := by rw [extendSchedule_length]; omega
  have hold := extendSchedule_getD_old (n + 1) W (show W.length - 16 < W.length by omega)
  rw [List.getD_eq_getElem _ _ hlt] at hold
  rw [List.drop_eq_getElem_cons hlt, hold, scheduleWindow_getD, Nat.add_zero (W.length - 16)]

/-- Rounds on a sliding window are rounds on the schedule as it grows on from that window. -/
theorem windowRounds_eq_foldl (ks : List Word) (v : Words8) {W : List Word} (h : 16 ≤ W.length) :
    windowRounds v (scheduleWindow W) ks =
      (ks.zip ((extendSchedule ks.length W).drop (W.length - 16))).foldl (fun u kw => mixRound u kw.1 kw.2) v := by
  induction ks generalizing v W with
  | nil => rfl
  | cons k ks ih =>
    have hlen : (W ++ [nextScheduleWord W]).length - 16 = W.length - 16 + 1 := by
      rw [List.length_append, List.length_singleton]; omega
    have hrest := ih (mixRound v k ((scheduleWindow W).getD 0 0)) (W := W ++ [nextScheduleWord W])
      (by rw [List.length_append]; omega)
    rw [windowRounds, ← scheduleWindow_append_next h, hrest, hlen, List.length_cons, drop_extendSchedule_succ _ h,
      List.zip_cons_cons, List.foldl_cons, extendSchedule]

/-- The rounds use the first 64 words of a schedule only. -/
theorem mixRounds_take (v : Words8) (W : List Word) : mixRounds v (W.take 64) = mixRounds v W := by
  have hk : roundConstants.take 64 = roundConstants := List.take_of_length_le roundConstants_length.le
  have hzip : roundConstants.zip (W.take 64) = roundConstants.zip W := by
    have htake : (roundConstants.zip W).take 64 = (roundConstants.take 64).zip (W.take 64) := List.take_zipWith
    rw [← List.take_of_length_le (show (roundConstants.zip W).length ≤ 64 by simp), htake, hk]
  rw [mixRounds, mixRounds, hzip]

/-- Settles O37: the window runs along the full schedule, extended by 16 words that no round uses. -/
theorem slidingWindowScheduleAgrees : Obligations.SlidingWindowScheduleAgrees := by
  intro H block
  have hload : scheduleWindow (loadSchedule block) = loadSchedule block := by
    rw [scheduleWindow, loadSchedule_length, Nat.sub_self, List.drop_zero]
  have hfirst : (extendSchedule 64 (loadSchedule block)).take 64 = messageSchedule block := by
    simpa [messageSchedule] using extendSchedule_take 48 16 (loadSchedule block)
  have hrounds : windowRounds H (loadSchedule block) roundConstants = mixRounds H (messageSchedule block) :=
    calc windowRounds H (loadSchedule block) roundConstants
        = windowRounds H (scheduleWindow (loadSchedule block)) roundConstants := by rw [hload]
      _ = mixRounds H (extendSchedule 64 (loadSchedule block)) := by
          rw [windowRounds_eq_foldl _ _ (loadSchedule_length block).ge, loadSchedule_length, roundConstants_length,
            Nat.sub_self, List.drop_zero, mixRounds]
      _ = mixRounds H (messageSchedule block) := by rw [← hfirst, mixRounds_take]
  rw [compressWindow, compress, hrounds]

end Sys2Proof.Machine
end

section
/-!
PROOF. The message a block has absorbed since the last reset (spec/42_hasher.md R103, R104, R107): what each operation on a
hasher makes of `Hasher.Absorbed`, and what each thing a step can do makes of `State.Tracks`.
-/

namespace Sys2Proof.Machine

/-! ## The hasher -/

theorem Hasher.absorbed_afterReset (c : Hasher) : c.afterReset.Absorbed [] 0 where
  hash := (hashBlocks_short initialHash (by decide)).symm
  valid := (tailOf_short (L := []) (by decide)).symm
  fill := rfl
  count := rfl

/-- `PROCESS` announces its bytes before it absorbs any (R103). -/
theorem Hasher.Absorbed.announce {c : Hasher} {M : List Byte} (h : c.Absorbed M 0) (len : Nat) :
    (c.count len).Absorbed M len where
  hash := h.hash
  valid := h.valid
  fill := h.fill
  count := by rw [Hasher.count_CNT, h.count, Nat.add_zero, add64, ← BitVec.ofNat_add]

/-- Absorbed bytes join the message and are no longer pending (R104, R107). -/
theorem Hasher.Absorbed.absorb {c : Hasher} {M data : List Byte} {rem : Nat} (hb : c.BUF.wf = true)
    (h : c.Absorbed M (data.length + rem)) : (c.absorb data).Absorbed (M ++ data) rem where
  hash := by rw [(Hasher.absorb_spec hb data).hash, h.hash, h.valid, ← hashBlocks_append]
  valid := by rw [(Hasher.absorb_spec hb data).valid, h.valid, ← tailOf_append]
  fill := by rw [(Hasher.absorb_spec hb data).fill, h.fill, List.length_append, Nat.mod_add_mod]
  count := by rw [Hasher.absorb_CNT, h.count, List.length_append, Nat.add_assoc]

/-! ## The operations on a state -/

theorem State.tracks_takeData {s : State} {M : List Byte} {rem : Nat} (hb : s.core.BUF.wf = true)
    (h : s.core.Absorbed M rem) : (s.takeData rem).Tracks (M ++ s.din.take rem) := by
  rw [State.Tracks, State.takeData_core, State.takeData_pending]
  have hlen : (s.din.take rem).length + (rem - s.din.length) = rem := by simp only [List.length_take]; omega
  exact Hasher.Absorbed.absorb hb (by rwa [hlen])

theorem State.tracks_offerDigest {s : State} {M : List Byte} (h : s.core.Absorbed M 0) (out : BitVec 256) :
    (s.offerDigest out).Tracks M := by
  rw [State.Tracks, State.offerDigest_core, State.offerDigest_op]
  split <;> exact h

/-- `t` has absorbed, besides `M`, the bytes that are gone from the front of the data channel of `s`. -/
def State.TracksTaken (s t : State) (M : List Byte) : Prop :=
  ∃ k, t.Tracks (M ++ s.din.take k) ∧ t.din = s.din.drop k

theorem State.tracksTaken_takeData {s : State} {M : List Byte} {rem : Nat} (hb : s.core.BUF.wf = true)
    (h : s.core.Absorbed M rem) : s.TracksTaken (s.takeData rem) M :=
  ⟨rem, State.tracks_takeData hb h, State.takeData_din s rem⟩

theorem State.tracksTaken_of_din_eq {s t : State} {M : List Byte} (h : t.Tracks M) (hdin : t.din = s.din) :
    s.TracksTaken t M :=
  ⟨0, by simpa using h, by simpa using hdin⟩

/-- A command adds the bytes it takes to the message, except `RESET`, which takes none and forgets the message. -/
theorem exec_tracks {i : Instr} {s t : State} {M : List Byte} (hb : s.core.BUF.wf = true) (h : s.core.Absorbed M 0)
    (hexec : exec i s = .next t) : s.TracksTaken t M ∨ (i = .reset ∧ t.Tracks [] ∧ t.din = s.din) := by
  cases i with
  | reset =>
    rw [exec_reset, Host.Outcome.next.injEq] at hexec
    subst hexec
    exact .inr ⟨rfl, Hasher.absorbed_afterReset _, rfl⟩
  | process len =>
    rw [exec_process, Host.Outcome.next.injEq] at hexec
    subst hexec
    exact .inl (State.tracksTaken_takeData (s := s.setCore (s.core.count len)) hb (h.announce len))
  | digest =>
    rw [exec_digest, Host.Outcome.next.injEq] at hexec
    subst hexec
    exact .inl (State.tracksTaken_of_din_eq (State.tracks_offerDigest h _) (State.offerDigest_din s _))

/-! ## The statement -/

/-- Settles O47: each thing a step can do adds the bytes it takes to the message, or is one of the two resets. -/
theorem stepTracksTheMessage : Obligations.StepTracksTheMessage := by
  intro s t M hinv htracks hstep
  have hb := hinv.buffer
  obtain ⟨hr, rfl⟩ | ⟨hr, ⟨rem, ho, rfl⟩ | ⟨out, ho, rfl⟩ | ⟨-, -, rfl⟩ | ⟨w, rest, i, ho, hc, hdec, hexec⟩⟩ :=
    step_cases hstep
  · exact .inr ⟨Hasher.absorbed_afterReset _, rfl, .inl hr⟩
  · rw [State.Tracks, ho] at htracks
    exact .inl (State.tracksTaken_takeData hb htracks)
  · rw [State.Tracks, ho] at htracks
    exact .inl (State.tracksTaken_of_din_eq (State.tracks_offerDigest htracks out) (State.offerDigest_din s out))
  · exact .inl (State.tracksTaken_of_din_eq htracks rfl)
  · rw [State.Tracks, ho] at htracks
    obtain htaken | ⟨rfl, hnothing, hdin⟩ := exec_tracks (s := s.setCmds rest) hb htracks hexec
    · exact .inl htaken
    · exact .inr ⟨hnothing, hdin, .inr ⟨s.cmdReady_iff.mpr ⟨hr, ho⟩, w, rest, hc, hdec⟩⟩

end Sys2Proof.Machine
end

section
/-!
PROOF. What becomes of the input channels and the pins (spec/30_encoding.md R46, R47, R52): apart from the transfer of a
command word, everything a step does takes at most data bytes, from the front of their channel.
-/

namespace Sys2Proof.Machine

/-- From `s` to `t` at most data bytes have been taken, the first ones; the commands and the pins are as before. -/
structure State.TakesAtMostData (s t : State) : Prop where
  cmds : t.cmds = s.cmds
  din : ∃ k, t.din = s.din.drop k
  rstN : t.rstN = s.rstN
  doutReady : t.doutReady = s.doutReady

theorem State.takesAtMostData_of_din_eq {s t : State} (hc : t.cmds = s.cmds) (hd : t.din = s.din) (hr : t.rstN = s.rstN)
    (ho : t.doutReady = s.doutReady) : s.TakesAtMostData t :=
  ⟨hc, ⟨0, hd⟩, hr, ho⟩

theorem State.takesAtMostData_takeData (s : State) (rem : Nat) : s.TakesAtMostData (s.takeData rem) :=
  ⟨s.takeData_cmds rem, ⟨rem, s.takeData_din rem⟩, s.takeData_rstN rem, s.takeData_doutReady rem⟩

theorem State.takesAtMostData_offerDigest (s : State) (out : BitVec 256) : s.TakesAtMostData (s.offerDigest out) :=
  State.takesAtMostData_of_din_eq (s.offerDigest_cmds out) (s.offerDigest_din out) (s.offerDigest_rstN out)
    (s.offerDigest_doutReady out)

theorem exec_takesAtMostData {i : Instr} {s t : State} (h : exec i s = .next t) : s.TakesAtMostData t := by
  cases i with
  | reset =>
    rw [exec_reset, Host.Outcome.next.injEq] at h
    subst h
    exact State.takesAtMostData_of_din_eq rfl rfl rfl rfl
  | process len =>
    rw [exec_process, Host.Outcome.next.injEq] at h
    subst h
    obtain ⟨hc, hd, hr, ho⟩ := State.takesAtMostData_takeData (s.setCore (s.core.count len)) len
    exact ⟨hc, hd, hr, ho⟩
  | digest =>
    rw [exec_digest, Host.Outcome.next.injEq] at h
    subst h
    exact State.takesAtMostData_offerDigest s _

/-- A step takes at most data bytes, or it also takes the first command word, and then the block was ready. -/
theorem step_takesAtMostData {s t : State} (h : step s = .next t) :
    s.TakesAtMostData t ∨
      ∃ w rest, s.cmdReady = true ∧ s.cmds = w :: rest ∧ (s.setCmds rest).TakesAtMostData t := by
  obtain ⟨-, rfl⟩ | ⟨hr, ⟨rem, -, rfl⟩ | ⟨out, -, rfl⟩ | ⟨-, -, rfl⟩ | ⟨w, rest, i, ho, hc, -, hexec⟩⟩ := step_cases h
  · exact .inl (State.takesAtMostData_of_din_eq rfl rfl rfl rfl)
  · exact .inl (s.takesAtMostData_takeData rem)
  · exact .inl (s.takesAtMostData_offerDigest out)
  · exact .inl (State.takesAtMostData_of_din_eq rfl rfl rfl rfl)
  · exact .inr ⟨w, rest, s.cmdReady_iff.mpr ⟨hr, ho⟩, hc, exec_takesAtMostData hexec⟩

/-- Settles O7: the command channel moves only on a block that is ready, and then by its first word. -/
theorem channelsAreConsumedInOrder : Obligations.ChannelsAreConsumedInOrder := by
  intro s t hstep
  obtain ⟨hcmds, hdin, hrst, hdout⟩ | ⟨w, rest, hready, hc, hcmds, hdin, hrst, hdout⟩ := step_takesAtMostData hstep
  · exact ⟨fun _ => hcmds, .inl hcmds, hdin, hrst, hdout⟩
  · rw [State.setCmds_cmds] at hcmds
    exact ⟨fun hbusy => by simp [hready] at hbusy, .inr ⟨w, by rw [hc, hcmds]⟩, hdin, hrst, hdout⟩

end Sys2Proof.Machine
end

section
/-!
PROOF. The direct path of `PROCESS` (spec/42_hasher.md R104, spec/20_memory.md R44): whole blocks on an empty buffer.
-/

namespace Sys2Proof.Machine

/-- Whole blocks on an empty buffer take the direct path in every pass of the loop. -/
theorem Hasher.absorbLoop_of_whole_blocks {passes : Nat} {c : Hasher} {data : List Byte} (h0 : c.BUFCNT = 0)
    (hwhole : data.length % 64 = 0) :
    (Hasher.absorbLoop passes c data).BUF = c.BUF ∧ (Hasher.absorbLoop passes c data).BUFCNT = 0 := by
  induction passes generalizing c data with
  | zero => exact ⟨rfl, h0⟩
  | succ passes ih =>
    by_cases hd : data = []
    · subst hd; rw [Hasher.absorbLoop_nil]; exact ⟨rfl, h0⟩
    · have hpos := List.length_pos_of_ne_nil hd
      obtain ⟨hbuf, hcnt⟩ := ih (c := c.directPass data) (data := data.drop 64) (by rw [Hasher.directPass_BUFCNT, h0])
        (by rw [List.length_drop]; omega)
      rw [Hasher.absorbLoop_directPath passes (by rw [h0]; rfl) (by omega)]
      exact ⟨by rw [hbuf, Hasher.directPass_BUF], hcnt⟩

/-- Settles O21: every pass takes the direct path. -/
theorem directPathLeavesTheBufferAlone : Obligations.DirectPathLeavesTheBufferAlone := by
  intro s len h0 hwhole hlen
  refine ⟨_, exec_process len s, ?_⟩
  simp only [State.takeData_core, State.setCore_core, State.setCore_din]
  exact Hasher.absorbLoop_of_whole_blocks (c := s.core.count len) h0 (by rwa [List.length_take_of_le hlen])

end Sys2Proof.Machine
end

section
/-!
PROOF. Data bytes absorbed in two parts (spec/42_hasher.md R106, spec/60_exceptions.md R121): the hasher, up to stale
buffer bytes, depends on the bytes only, and so does a `PROCESS` that waits for its last bytes.
-/

namespace Sys2Proof.Machine

/-! ## The hasher -/

/-- Absorbing two runs of bytes one after the other is absorbing them as one, up to stale buffer bytes. -/
theorem Hasher.absorb_append {c : Hasher} (hb : c.BUF.wf = true) (first second : List Byte) :
    ((c.absorb first).absorb second).SameButStale (c.absorb (first ++ second)) := by
  have hfirst := Hasher.absorb_spec hb first
  have hsecond := Hasher.absorb_spec hfirst.buffer second
  have hboth := Hasher.absorb_spec hb (first ++ second)
  exact
    { hash := by
        rw [hsecond.hash, hfirst.hash, hfirst.valid, hboth.hash, ← hashBlocks_append, List.append_assoc]
      fill := BitVec.eq_of_toNat_eq (by
        rw [hsecond.fill, hfirst.fill, hboth.fill, List.length_append, Nat.mod_add_mod, Nat.add_assoc])
      count := by simp only [Hasher.absorb_CNT]
      valid := by rw [hsecond.valid, hfirst.valid, hboth.valid, ← tailOf_append, List.append_assoc] }

/-! ## The waiting PROCESS -/

section
variable (s : State) (bs : List Byte)

@[simp] theorem State.offerBytes_core : (s.offerBytes bs).core = s.core := (rfl)
@[simp] theorem State.offerBytes_op : (s.offerBytes bs).op = s.op := (rfl)
@[simp] theorem State.offerBytes_cmds : (s.offerBytes bs).cmds = s.cmds := (rfl)
@[simp] theorem State.offerBytes_din : (s.offerBytes bs).din = s.din ++ bs := (rfl)
@[simp] theorem State.offerBytes_digests : (s.offerBytes bs).digests = s.digests := (rfl)
@[simp] theorem State.offerBytes_rstN : (s.offerBytes bs).rstN = s.rstN := (rfl)
@[simp] theorem State.offerBytes_doutReady : (s.offerBytes bs).doutReady = s.doutReady := (rfl)

end

theorem State.offerBytes_setCore (s : State) (c : Hasher) (bs : List Byte) :
    (s.setCore c).offerBytes bs = (s.offerBytes bs).setCore c := (rfl)

/-- Taking the bytes at hand, which are not enough, and later ones as they come is taking them all together, up to stale
buffer bytes. -/
theorem State.takeData_late {s : State} (hb : s.core.BUF.wf = true) {rem : Nat} (hshort : s.din.length ≤ rem)
    (late : List Byte) :
    (((s.takeData rem).offerBytes late).takeData (rem - s.din.length)).SameButStale
      ((s.offerBytes late).takeData rem) where
  core := by
    simpa only [State.takeData_core, State.takeData_din, State.offerBytes_core, State.offerBytes_din,
      List.drop_of_length_le hshort, List.nil_append, List.take_append]
      using Hasher.absorb_append hb (s.din.take rem) (late.take (rem - s.din.length))
  op := by
    simp only [State.takeData_op, State.takeData_din, State.offerBytes_din, List.drop_of_length_le hshort,
      List.nil_append, List.length_append, Nat.sub_sub, Nat.lt_sub_iff_add_lt']
  cmds := by simp only [State.takeData_cmds, State.offerBytes_cmds]
  din := by
    simp only [State.takeData_din, State.offerBytes_din, List.drop_of_length_le hshort, List.nil_append,
      List.drop_append]
  digests := by simp only [State.takeData_digests, State.offerBytes_digests]
  rstN := by simp only [State.takeData_rstN, State.offerBytes_rstN]
  doutReady := by simp only [State.takeData_doutReady, State.offerBytes_doutReady]

/-! ## The statement -/

/-- Settles O23: the `PROCESS` waits for what is missing, and its continuation takes the late bytes. -/
theorem lateBytesMakeNoDifference : Obligations.LateBytesMakeNoDifference := by
  intro s len late hb hr hshort
  have hop : (((s.setCore (s.core.count len)).takeData len).offerBytes late).op = .process (len - s.din.length) := by
    rw [State.offerBytes_op, State.takeData_op, State.setCore_din, if_pos hshort]
  refine ⟨_, _, _, exec_process len s, step_of_process (by simpa using hr) hop, exec_process len (s.offerBytes late), ?_⟩
  rw [State.offerBytes_core, ← State.offerBytes_setCore]
  exact State.takeData_late (s := s.setCore (s.core.count len)) hb hshort.le late

end Sys2Proof.Machine
end

section
/-!
PROOF. Command words and commands (spec/30_encoding.md R48 to R56): the decoder answers one of six things, each on a range
of words of its own; the commands it answers are the encoded ones, the reserved words are three ranges.
-/

namespace Sys2Proof

/-- The first word of a reserved range (R55). -/
def ReservedWord.first : ReservedWord → Nat
  | .noOperation => 0x00000000
  | .resetWithLength => 0x40000001
  | .digestWithLength => 0xC0000001

/-- The last word of a reserved range (R55). -/
def ReservedWord.last : ReservedWord → Nat
  | .noOperation => 0x3FFFFFFF
  | .resetWithLength => 0x7FFFFFFF
  | .digestWithLength => 0xFFFFFFFF

/-- The six ranges of words and what the decoder reads from each. -/
theorem decode_cases (w : Word) :
    (w.toNat ≤ 0x3FFFFFFF ∧ decode w = .reserved .noOperation) ∨
    (w.toNat = 0x40000000 ∧ decode w = .command .reset) ∨
    ((0x40000001 ≤ w.toNat ∧ w.toNat ≤ 0x7FFFFFFF) ∧ decode w = .reserved .resetWithLength) ∨
    (∃ len, (len < 2 ^ 30 ∧ w.toNat = 2 ^ 31 + len) ∧ decode w = .command (.process len)) ∨
    (w.toNat = 0xC0000000 ∧ decode w = .command .digest) ∨
    (0xC0000001 ≤ w.toNat ∧ decode w = .reserved .digestWithLength) := by
  have hw := w.isLt
  rw [decode_by_value]
  split_ifs with h1 hreset h2 h3 hdigest
  · exact .inr (.inl ⟨by omega, rfl⟩)
  · exact .inr (.inr (.inl ⟨by omega, rfl⟩))
  · exact .inr (.inr (.inr (.inl ⟨_, by omega, rfl⟩)))
  · exact .inr (.inr (.inr (.inr (.inl ⟨by omega, rfl⟩))))
  · exact .inr (.inr (.inr (.inr (.inr ⟨by omega, rfl⟩))))
  · exact .inl ⟨by omega, rfl⟩

/-! ## Commands -/

theorem decode_encode {i : Instr} (h : i.wf = true) : decode (encode i) = .command i := by
  cases i with
  | reset => rfl
  | digest => rfl
  | process len =>
    have hlen : len < 2 ^ 30 := by simpa only [Instr.wf, Config.lenWidth_eq, decide_eq_true_eq] using h
    have hvalue := encode_process_toNat hlen
    have hop : (2 ^ 31 + len) / 2 ^ 30 = 2 := by omega
    have hfield : (2 ^ 31 + len) % 2 ^ 30 = len := by omega
    rw [decode_by_value, hvalue, hop, hfield]
    rfl

theorem encode_of_decode {w : Word} {i : Instr} (h : decode w = .command i) : encode i = w := by
  apply BitVec.eq_of_toNat_eq
  obtain ⟨-, hd⟩ | ⟨hw, hd⟩ | ⟨-, hd⟩ | ⟨len, ⟨hlen, hw⟩, hd⟩ | ⟨hw, hd⟩ | ⟨-, hd⟩ := decode_cases w <;>
    rw [hd] at h <;> cases h
  · exact hw.symm
  · rw [encode_process_toNat hlen, hw]
  · exact hw.symm

/-! ## Reserved words -/

/-- A word is reserved exactly if it lies in the range: no word lies in two of the six. -/
theorem decode_eq_reserved_iff (w : Word) (why : ReservedWord) :
    decode w = .reserved why ↔ why.first ≤ w.toNat ∧ w.toNat ≤ why.last := by
  have hw := w.isLt
  obtain ⟨hr, hd⟩ | ⟨hr, hd⟩ | ⟨hr, hd⟩ | ⟨len, hr, hd⟩ | ⟨hr, hd⟩ | ⟨hr, hd⟩ := decode_cases w <;> rw [hd] <;>
    cases why <;> simp [ReservedWord.first, ReservedWord.last] <;> omega

/-- The three ranges of the commands, disjoint from those of the reserved words. -/
theorem decode_eq_command_iff_range (w : Word) :
    (∃ i, decode w = .command i) ↔
      w.toNat = 0x40000000 ∨ (0x80000000 ≤ w.toNat ∧ w.toNat ≤ 0xBFFFFFFF) ∨ w.toNat = 0xC0000000 := by
  obtain ⟨hr, hd⟩ | ⟨hr, hd⟩ | ⟨hr, hd⟩ | ⟨len, hr, hd⟩ | ⟨hr, hd⟩ | ⟨hr, hd⟩ := decode_cases w <;> rw [hd] <;>
    simp <;> omega

end Sys2Proof

namespace Sys2Proof.Machine

/-! ## The statements -/

/-- Settles O2: `decode_encode`, and `encode_of_decode` with the length that fits its field. -/
theorem encodeAndDecodeAgree : Obligations.EncodeAndDecodeAgree :=
  ⟨fun _ => decode_encode, fun _ _ h => ⟨decode_command_wf h, encode_of_decode h⟩⟩

/-- Settles O3: the ranges of `decode_cases`; a ready block refuses by `step_of_reserved`. -/
theorem reservedWordsAreTheThreeRanges : Obligations.ReservedWordsAreTheThreeRanges := by
  refine ⟨decode_eq_command_iff_range, fun w => ?_, fun w => decode_eq_reserved_iff w _, fun w => ?_,
    fun _ _ _ _ hr ho hc hd => step_of_reserved hr ho hc hd⟩
  · rw [decode_eq_reserved_iff]
    exact and_iff_right (Nat.zero_le _)
  · rw [decode_eq_reserved_iff]
    exact and_iff_left (Nat.le_of_lt_succ w.isLt)

/-- Settles O1: eight closed words. -/
theorem tabledWordsDecode : Obligations.TabledWordsDecode := by
  unfold Obligations.TabledWordsDecode
  decide

/-- Settles O4: the equation of `step` for a ready block and a word that is a command. -/
theorem stepRunsTheOfferedCommand : Obligations.StepRunsTheOfferedCommand :=
  fun _ _ _ _ hr ho hc hd => step_of_command hr ho hc hd

end Sys2Proof.Machine
end

section
/-!
PROOF. The digest-out channel (spec/30_encoding.md R54): each byte written out moves the earlier ones up by eight bits, and
the four bytes of a word move them up by 32.
-/

namespace Sys2Proof.Machine

/-- One more byte on the channel: the earlier ones move up, the new one stands in the lowest place. -/
theorem doutOf_concat (out : List Byte) (b : Byte) : doutOf (out ++ [b]) = doutOf out <<< 8 ||| b.setWidth 256 := by
  simp only [doutOf, List.foldl_append, List.foldl_cons, List.foldl_nil]

/-! ## Bytes -/

theorem extractLsb'_shift_or_low (x : BitVec 256) (b : Byte) : (x <<< 8 ||| b.setWidth 256).extractLsb' 0 8 = b := by
  ext i hi
  have h256 : i < 256 := by omega
  simp [hi, h256]

theorem extractLsb'_shift_or_high (x : BitVec 256) (b : Byte) {k : Nat} (hk : k + 16 ≤ 256) :
    (x <<< 8 ||| b.setWidth 256).extractLsb' (k + 8) 8 = x.extractLsb' k 8 := by
  ext i hi
  have h256 : k + 8 + i < 256 := by omega
  have hlow : ¬ k + 8 + i < 8 := by omega
  have hup : k + 8 + i - 8 = k + i := by omega
  have hb : b.getLsbD (k + 8 + i) = false := BitVec.getLsbD_of_ge b _ (by omega)
  simp [h256, hlow, hup, hb, BitVec.getLsbD_eq_getElem (show k + i < 256 by omega)]

/-- Counted from the last byte, which is the lowest, byte `k` stands `8k` bits up. -/
theorem doutOf_byte {out : List Byte} (h : out.length ≤ 32) {i k : Nat} (hik : i + k + 1 = out.length) :
    (doutOf out).extractLsb' (8 * k) 8 = out.getD i 0 := by
  induction out using List.reverseRecOn generalizing k with
  | nil => simp at hik
  | append_singleton out b ih =>
    rw [List.length_append, List.length_singleton] at h hik
    rw [doutOf_concat]
    cases k with
    | zero =>
      rw [Nat.mul_zero, extractLsb'_shift_or_low]
      simp [List.getD, show i = out.length by omega]
    | succ k =>
      rw [Nat.mul_succ, extractLsb'_shift_or_high _ _ (by omega), ih (by omega) (by omega)]
      simp [List.getD, List.getElem?_append_left (show i < out.length by omega)]

/-! ## Words -/

/-- Moving a value up and putting another one below it is `++`, on as many bits as the channel has. -/
theorem setWidth_shift_or {n m : Nat} (x : BitVec n) (y : BitVec m) :
    x.setWidth 256 <<< m ||| y.setWidth 256 = (x ++ y).setWidth 256 := by
  ext i hi
  by_cases him : i < m
  · simp [him, BitVec.getLsbD_append]
  · simp [him, BitVec.getLsbD_append, BitVec.getLsbD_of_ge y i (by omega)]

theorem append_bytes_eq_append_word {n : Nat} (x : BitVec n) (w : Word) :
    (x ++ w.extractLsb' 24 8 ++ w.extractLsb' 16 8 ++ w.extractLsb' 8 8 ++ w.extractLsb' 0 8).setWidth 256 =
      (x ++ w).setWidth 256 := by
  ext i hi
  simp only [BitVec.getElem_setWidth, BitVec.getLsbD_append, BitVec.getLsbD_extractLsb']
  grind

/-- A word on the channel, behind a value that stands there. -/
theorem doutOf_append_bytes32 {out : List Byte} {n : Nat} {x : BitVec n} (h : doutOf out = x.setWidth 256) (w : Word) :
    doutOf (out ++ bytes32 w) = (x ++ w).setWidth 256 := by
  simp only [doutOf, List.foldl_append, bytes32, List.foldl_cons, List.foldl_nil] at h ⊢
  rw [h, setWidth_shift_or, setWidth_shift_or, setWidth_shift_or, setWidth_shift_or, append_bytes_eq_append_word]

theorem doutOf_bytes32 (w : Word) : doutOf (bytes32 w) = w.setWidth 256 := by
  have hfirst : doutOf (bytes32 w) = (0#0 ++ w).setWidth 256 := doutOf_append_bytes32 (out := []) rfl w
  rw [hfirst]
  ext i hi
  rw [BitVec.getElem_setWidth, BitVec.getElem_setWidth, BitVec.getLsbD_append, BitVec.getLsbD_of_zero_length rfl]
  exact ite_eq_left_iff.mpr fun h => (BitVec.getLsbD_of_ge w i (by omega)).symm

theorem doutOf_digestBytes (H : Words8) :
    doutOf (digestBytes H) = H.w0 ++ H.w1 ++ H.w2 ++ H.w3 ++ H.w4 ++ H.w5 ++ H.w6 ++ H.w7 := by
  have h1 := doutOf_append_bytes32 (doutOf_bytes32 H.w0) H.w1
  have h3 := doutOf_append_bytes32 (doutOf_append_bytes32 h1 H.w2) H.w3
  have h5 := doutOf_append_bytes32 (doutOf_append_bytes32 h3 H.w4) H.w5
  have h7 := doutOf_append_bytes32 (doutOf_append_bytes32 h5 H.w6) H.w7
  exact h7.trans (BitVec.setWidth_eq _)

/-! ## The statement -/

/-- Settles O29: byte `i` is byte `31 - i` from the lowest, and the eight words follow one another. -/
theorem doutLayout : Obligations.DoutLayout := by
  refine ⟨fun out i hlen hi => ?_, doutOf_digestBytes⟩
  have hplace : 248 - 8 * i = 8 * (31 - i) := by omega
  rw [hplace, doutOf_byte (i := i) hlen.le (by omega)]

end Sys2Proof.Machine
end

section
/-!
PROOF. The digest-out channel along a step (spec/30_encoding.md R53, spec/70_reset_and_hazards.md R147): what an offered
digest does to it, that no other command touches it, and that a digest waits for its host unchanged.
-/

namespace Sys2Proof.Machine

theorem State.offerDigest_of_accepted {s : State} (h : s.doutReady = true) (out : BitVec 256) :
    s.offerDigest out = (s.setDigests (s.digests ++ [out])).setOp .idle := by
  rw [State.offerDigest, if_pos h]

theorem State.offerDigest_of_not_accepted {s : State} (h : s.doutReady = false) (out : BitVec 256) :
    s.offerDigest out = s.setOp (.digest out) := by
  rw [State.offerDigest, if_neg (by simp [h])]

/-- Offering a digest transfers nothing, or that digest to a host that accepts it. -/
theorem State.offerDigest_digests_cases (s : State) (out : BitVec 256) :
    (s.offerDigest out).digests = s.digests ∨
      ((s.offerDigest out).digests = s.digests ++ [out] ∧ s.doutReady = true) := by
  cases h : s.doutReady with
  | false => exact .inl (by rw [State.offerDigest_of_not_accepted h, State.setOp_digests])
  | true => exact .inr ⟨by rw [State.offerDigest_of_accepted h, State.setOp_digests, State.setDigests_digests], rfl⟩

/-- A command transfers nothing, or it is a `DIGEST` and the live state's digest goes to a host that accepts it. -/
theorem exec_digests_cases {i : Instr} {s t : State} (h : exec i s = .next t) :
    t.digests = s.digests ∨
      (i = .digest ∧ t.digests = s.digests ++ [doutOf s.core.digest] ∧ s.doutReady = true) := by
  cases i with
  | reset =>
    rw [exec_reset, Host.Outcome.next.injEq] at h
    exact .inl (by rw [← h, State.setOp_digests, State.setCore_digests])
  | process len =>
    rw [exec_process, Host.Outcome.next.injEq] at h
    exact .inl (by rw [← h, State.takeData_digests, State.setCore_digests])
  | digest =>
    rw [exec_digest, Host.Outcome.next.injEq] at h
    subst h
    exact (State.offerDigest_digests_cases s _).imp_right fun hout => ⟨rfl, hout⟩

/-- Settles O8: of the things a step can do only a waiting `DIGEST` and one it takes reach the channel. -/
theorem onlyDigestTransfersADigest : Obligations.OnlyDigestTransfersADigest := by
  intro s t hstep
  obtain ⟨-, rfl⟩ | ⟨hr, ⟨rem, -, rfl⟩ | ⟨out, ho, rfl⟩ | ⟨-, -, rfl⟩ | ⟨w, rest, i, ho, hc, hdec, hexec⟩⟩ :=
    step_cases hstep
  · exact .inl s.hardwareReset_digests
  · exact .inl (s.takeData_digests rem)
  · exact (State.offerDigest_digests_cases s out).imp_right fun ⟨hout, hready⟩ => ⟨out, hout, hr, hready, .inl ho⟩
  · exact .inl rfl
  · exact (exec_digests_cases hexec).imp_right fun ⟨hi, hout, hready⟩ =>
      ⟨_, hout, hr, hready, .inr ⟨ho, w, rest, hc, hi ▸ hdec, rfl⟩⟩

/-- Settles O13: the step offers the same digest again. -/
theorem offeredDigestIsHeldUntilAccepted : Obligations.OfferedDigestIsHeldUntilAccepted := by
  intro s out hr ho
  have hstep := step_of_digest hr ho
  refine ⟨by simp [State.doutValid, ho, hr], by simp [State.dout, ho, hr], by simp [State.cmdReady, ho],
    fun hbusy => ?_, fun haccept => ?_⟩
  · have hsame : s.setOp (.digest out) = s := State.ext_fields rfl ho.symm rfl rfl rfl rfl rfl
    rw [hstep, State.offerDigest_of_not_accepted hbusy, hsame]
  · rw [State.offerDigest_of_accepted haccept] at hstep
    exact ⟨_, hstep, rfl, rfl, (State.cmdReady_iff _).mpr ⟨hr, rfl⟩, rfl, rfl, rfl⟩

end Sys2Proof.Machine
end

section
/-!
PROOF. A `PROCESS` that is short of bytes, and one that is not (spec/30_encoding.md R47, R52, spec/60_exceptions.md R121):
the two things `State.takeData` can do, with the handshake outputs they leave.
-/

namespace Sys2Proof.Machine

/-- Between `s` and `t` a `PROCESS` has absorbed all the bytes offered, and it waits for `missing` more (R121). -/
structure State.WaitsAfter (s t : State) (missing : Nat) : Prop where
  op : t.op = .process missing
  din : t.din = []
  core : t.core = s.core.absorb s.din
  cmdReady : t.cmdReady = false
  dinReady : t.dinReady = true
  cmds : t.cmds = s.cmds
  digests : t.digests = s.digests

theorem State.takeData_short {s : State} {rem : Nat} (hr : s.rstN = true) (h : s.din.length < rem) :
    s.WaitsAfter (s.takeData rem) (rem - s.din.length) := by
  have hop : (s.takeData rem).op = .process (rem - s.din.length) := by rw [State.takeData_op, if_pos h]
  exact
    { op := hop
      din := by rw [State.takeData_din, List.drop_of_length_le h.le]
      core := by rw [State.takeData_core, List.take_of_length_le h.le]
      cmdReady := by simp [State.cmdReady, hop]
      dinReady := by simp [State.dinReady, hop, hr, h]
      cmds := s.takeData_cmds rem
      digests := s.takeData_digests rem }

theorem State.takeData_op_of_enough {s : State} {rem : Nat} (h : rem ≤ s.din.length) : (s.takeData rem).op = .idle := by
  rw [State.takeData_op, if_neg (Nat.not_lt.mpr h)]

/-- A waiting `PROCESS` to which nothing is offered stays as it is. -/
theorem State.takeData_of_nothing_offered {s : State} {rem : Nat} (hd : s.din = []) (ho : s.op = .process rem)
    (hpos : 0 < rem) : s.takeData rem = s :=
  State.ext_fields (by rw [State.takeData_core, hd, List.take_nil, Hasher.absorb_nil])
    (by rw [State.takeData_op, hd, List.length_nil, if_pos hpos, Nat.sub_zero, ho]) (s.takeData_cmds rem)
    (by rw [State.takeData_din, hd, List.drop_nil]) (s.takeData_digests rem) (s.takeData_rstN rem)
    (s.takeData_doutReady rem)

theorem step_of_stuck {s : State} (h : s.stuck) : step s = .next s := by
  obtain ⟨hd, ⟨rem, hpos, ho⟩, hr⟩ := h
  rw [step_of_process hr ho, State.takeData_of_nothing_offered hd ho hpos]

/-- Settles O10: a `PROCESS` that is issued and one that is continued take their bytes by `State.takeData`. -/
theorem shortStreamLeavesProcessWaiting : Obligations.ShortStreamLeavesProcessWaiting := by
  refine ⟨fun s len hr hshort => ?_, fun s rem hr ho hshort => ?_, fun s rem hr ho henough => ?_,
    fun s => step_of_stuck, fun s _ => ⟨_, step_of_rstN_low (s := s.driveReset false) rfl, rfl⟩⟩
  · obtain ⟨hop, hdin, hcore, hcmd, hdata, hcmds, hdigests⟩ :=
      State.takeData_short (s := s.setCore (s.core.count len)) hr hshort
    exact ⟨_, exec_process len s, hop, hdin, hcore, hcmd, hdata, hcmds, hdigests⟩
  · obtain ⟨hop, hdin, hcore, hcmd, hdata, hcmds, hdigests⟩ := State.takeData_short hr hshort
    exact ⟨_, step_of_process hr ho, hop, hdin, hcore, hcmd, hdata, hcmds, hdigests⟩
  · have hop := State.takeData_op_of_enough henough
    exact ⟨_, step_of_process hr ho, hop, s.takeData_din rem, s.takeData_core rem,
      (State.cmdReady_iff _).mpr ⟨by rw [State.takeData_rstN, hr], hop⟩, s.takeData_cmds rem, s.takeData_digests rem⟩

end Sys2Proof.Machine
end

section
/-!
PROOF. `PROCESS` with all its bytes at hand, once and several times in a row (spec/42_hasher.md R103, R104, R106), and the
digest of a hasher that has absorbed a message (R109 to R113, R116).
-/

namespace Sys2Proof.Machine

/-! ## Chunks of data -/

theorem Hasher.SameButStale.trans {c d e : Hasher} (h : c.SameButStale d) (h' : d.SameButStale e) : c.SameButStale e :=
  ⟨h.hash.trans h'.hash, h.fill.trans h'.fill, h.count.trans h'.count, h.valid.trans h'.valid⟩

@[simp] theorem Hasher.feed_CNT (c : Hasher) (data : List Byte) : (c.feed data).CNT = add64 c.CNT data.length := by
  rw [Hasher.feed, Hasher.absorb_CNT, Hasher.count_CNT]

@[simp] theorem Hasher.feed_nil (c : Hasher) : c.feed [] = c :=
  Hasher.ext_fields rfl rfl rfl (by simp [add64])

/-- `feed` is `absorb` but for the counter. -/
theorem Hasher.feed_spec {c : Hasher} (hb : c.BUF.wf = true) (data : List Byte) :
    (c.count data.length).AbsorbSpec (c.feed data) data :=
  Hasher.absorb_spec (c := c.count data.length) hb data

theorem add64_add64 (c : BitVec 64) (m n : Nat) : add64 (add64 c m) n = add64 c (m + n) := by
  rw [add64, add64, add64, BitVec.ofNat_add, BitVec.add_assoc]

/-- Two `PROCESS` one after the other leave what one leaves, up to stale buffer bytes (R106). -/
theorem Hasher.feed_feed {c : Hasher} (hb : c.BUF.wf = true) (X Y : List Byte) :
    ((c.feed X).feed Y).SameButStale (c.feed (X ++ Y)) := by
  have hX := Hasher.feed_spec hb X
  have hY := Hasher.feed_spec hX.buffer Y
  have hXY := Hasher.feed_spec hb (X ++ Y)
  exact
    { hash := by
        rw [hY.hash, Hasher.count_H, Hasher.count_validBytes, hX.hash, hX.valid, ← hashBlocks_append, List.append_assoc,
          hXY.hash, Hasher.count_H, Hasher.count_H, Hasher.count_validBytes, Hasher.count_validBytes]
      fill := BitVec.eq_of_toNat_eq (by
        rw [hY.fill, Hasher.count_BUFCNT, hX.fill, hXY.fill, List.length_append, Nat.mod_add_mod, Nat.add_assoc,
          Hasher.count_BUFCNT, Hasher.count_BUFCNT])
      count := by rw [Hasher.feed_CNT, Hasher.feed_CNT, Hasher.feed_CNT, add64_add64, List.length_append]
      valid := by
        rw [hY.valid, Hasher.count_validBytes, hX.valid, ← tailOf_append, List.append_assoc, hXY.valid,
          Hasher.count_validBytes, Hasher.count_validBytes] }

theorem Hasher.foldl_feed_wf {c : Hasher} (hb : c.BUF.wf = true) (chunks : List (List Byte)) :
    (chunks.foldl Hasher.feed c).BUF.wf = true := by
  induction chunks generalizing c with
  | nil => exact hb
  | cons X rest ih => exact ih (Hasher.feed_spec hb X).buffer

/-- A `PROCESS` for each chunk leaves what one `PROCESS` of all of them leaves, up to stale buffer bytes (R106). -/
theorem Hasher.foldl_feed_sameButStale {c : Hasher} (hb : c.BUF.wf = true) (chunks : List (List Byte)) :
    (chunks.foldl Hasher.feed c).SameButStale (c.feed chunks.flatten) := by
  induction chunks generalizing c with
  | nil => rw [List.foldl_nil, List.flatten_nil, Hasher.feed_nil]; exact ⟨rfl, rfl, rfl, rfl⟩
  | cons X rest ih => exact (ih (Hasher.feed_spec hb X).buffer).trans (Hasher.feed_feed hb X rest.flatten)

/-! ## The message -/

theorem Hasher.Absorbed.feed {c : Hasher} {M : List Byte} (hb : c.BUF.wf = true) (h : c.Absorbed M 0) (X : List Byte) :
    (c.feed X).Absorbed (M ++ X) 0 :=
  Hasher.Absorbed.absorb (c := c.count X.length) hb (h.announce X.length)

theorem Hasher.Absorbed.congr {c d : Hasher} {M : List Byte} {pending : Nat} (h : d.Absorbed M pending)
    (hsame : c.SameButStale d) : c.Absorbed M pending :=
  ⟨hsame.hash.trans h.hash, hsame.valid.trans h.valid, hsame.fill ▸ h.fill, hsame.count.trans h.count⟩

/-- The bit length of the counter is the one the padding writes, also where both wrap (R79, R116). -/
theorem bitLen_ofNat (n : Nat) : bitLen (BitVec.ofNat 64 n) = BitVec.ofNat 64 (8 * n) := by
  apply BitVec.eq_of_toNat_eq
  simp only [bitLen, BitVec.toNat_shiftLeft, BitVec.toNat_ofNat, Nat.shiftLeft_eq]
  omega

/-- The footer of a hasher that has absorbed `M` is the padding of `M` (R110, R111, R116). -/
theorem Hasher.Absorbed.append_footer {c : Hasher} {M : List Byte} (h : c.Absorbed M 0) :
    M ++ c.footer = paddedMessage M := by
  have hzeros : c.footerLength - 9 = zeroCount M.length := by
    simp only [Hasher.footerLength, zeroCount, h.fill]
    split <;> omega
  rw [Hasher.footer, paddedMessage, hzeros, h.count, Nat.add_zero, bitLen_ofNat, ← List.append_assoc]

/-- The digest of a hasher that has absorbed `M` is the SHA-256 digest of `M`; from 2^61 bytes on both have the bit length
modulo 2^64. -/
theorem Hasher.Absorbed.digest {c : Hasher} {M : List Byte} (hb : c.BUF.wf = true) (h : c.Absorbed M 0) :
    c.digest = sha256 M := by
  rw [Hasher.digest, sha256, ← h.append_footer, Hasher.padded, (h.feed hb c.footer).hash]

end Sys2Proof.Machine
end

section
/-!
PROOF. The pseudo-operations (spec/30_encoding.md R59): a run steps through the commands offered, a `PROCESS` with all its
bytes at hand is one step that feeds them to the hasher, and a long `PROCESS` is a sequence of those.
-/

namespace Sys2Proof.Machine

/-! ## Runs -/

/-- `k` steps lead from `s` to `t`. -/
def State.RunsTo (s : State) (k : Nat) (t : State) : Prop := Host.Core.run Sys2Proof.core k s = .next t

theorem State.runsTo_zero (s : State) : s.RunsTo 0 s := rfl

theorem State.RunsTo.of_step {s t u : State} {k : Nat} (h : t.RunsTo k u) (hstep : step s = .next t) :
    s.RunsTo (k + 1) u := by
  have hcore : Sys2Proof.core.step s = .next t := hstep
  simp only [State.RunsTo, Host.Core.run, hcore]
  exact h

/-! ## What the host offers -/

section
variable (s : State) (p : List HostCommand)

@[simp] theorem State.issue_core : (s.issue p).core = s.core := (rfl)
@[simp] theorem State.issue_op : (s.issue p).op = s.op := (rfl)
@[simp] theorem State.issue_cmds : (s.issue p).cmds = s.cmds ++ p.map fun c => encode c.instr := (rfl)
@[simp] theorem State.issue_din : (s.issue p).din = s.din ++ p.flatMap HostCommand.data := (rfl)
@[simp] theorem State.issue_digests : (s.issue p).digests = s.digests := (rfl)
@[simp] theorem State.issue_rstN : (s.issue p).rstN = s.rstN := (rfl)
@[simp] theorem State.issue_doutReady : (s.issue p).doutReady = s.doutReady := (rfl)

end

/-- A long `PROCESS` is cut into chunks that fit the length field (R59, R50). -/
theorem splitProcess_eq_map {parts : Nat} {X : List Byte} (h : X.length < parts) :
    ∃ chunks : List (List Byte), splitProcess parts X = chunks.map processOf ∧ chunks.flatten = X ∧
      ∀ Y ∈ chunks, Y.length < 2 ^ Config.lenWidth := by
  induction parts generalizing X with
  | zero => exact absurd h (Nat.not_lt_zero _)
  | succ parts ih =>
    by_cases hfits : X.length < 2 ^ Config.lenWidth
    · exact ⟨[X], by rw [splitProcess, if_pos hfits]; rfl, List.flatten_singleton, by simpa using hfits⟩
    · rw [Config.lenWidth_eq] at hfits
      obtain ⟨chunks, hsplit, hflat, hshort⟩ := ih (X := X.drop (2 ^ Config.lenWidth - 1))
        (by rw [List.length_drop, Config.lenWidth_eq]; omega)
      refine ⟨X.take (2 ^ Config.lenWidth - 1) :: chunks, ?_, ?_, ?_⟩
      · rw [splitProcess, if_neg (by rwa [Config.lenWidth_eq]), hsplit, List.map_cons]
      · rw [List.flatten_cons, hflat, List.take_append_drop]
      · refine List.forall_mem_cons.mpr ⟨?_, hshort⟩
        rw [List.length_take, Config.lenWidth_eq]
        omega

theorem flatMap_data_processOf (chunks : List (List Byte)) :
    (chunks.map processOf).flatMap HostCommand.data = chunks.flatten := by
  rw [List.flatMap_map]
  exact List.flatMap_id'

/-! ## PROCESS with all its bytes at hand -/

theorem exec_process_at_hand {s : State} (ho : s.op = .idle) {X D : List Byte} (hd : s.din = X ++ D) :
    exec (.process X.length) s = .next ((s.setCore (s.core.feed X)).setDin D) := by
  have hlen : X.length ≤ (s.setCore (s.core.count X.length)).din.length := by
    rw [State.setCore_din, hd, List.length_append]
    exact Nat.le_add_right _ _
  rw [exec_process, Host.Outcome.next.injEq]
  exact State.ext_fields (by simp [hd, Hasher.feed]) ((State.takeData_op_of_enough hlen).trans ho.symm) (by simp)
    (by simp [hd]) (by simp) (by simp) (by simp)

theorem step_process_at_hand {s : State} (hr : s.rstN = true) (ho : s.op = .idle) {X D : List Byte} {words : List Word}
    (hX : X.length < 2 ^ Config.lenWidth) (hc : s.cmds = encode (.process X.length) :: words) (hd : s.din = X ++ D) :
    step s = .next (((s.setCmds words).setCore (s.core.feed X)).setDin D) := by
  have hdec := decode_encode (i := .process X.length) (by rwa [Instr.wf, decide_eq_true_eq])
  rw [step_of_command hr ho hc hdec, exec_process_at_hand (s := s.setCmds words) ho hd, State.setCmds_core]

/-- A run over a sequence of such commands feeds the hasher chunk by chunk; then it goes on with what is offered behind
them. -/
theorem State.RunsTo.of_processes {chunks : List (List Byte)} (hshort : ∀ X ∈ chunks, X.length < 2 ^ Config.lenWidth)
    {s : State} (hr : s.rstN = true) (ho : s.op = .idle) {words : List Word} {D : List Byte}
    (hc : s.cmds = ((chunks.map processOf).map fun c => encode c.instr) ++ words) (hd : s.din = chunks.flatten ++ D)
    {k : Nat} {u : State}
    (h : (((s.setCmds words).setCore (chunks.foldl Hasher.feed s.core)).setDin D).RunsTo k u) :
    s.RunsTo (chunks.length + k) u := by
  induction chunks generalizing s with
  | nil =>
    have hsame : ((s.setCmds words).setCore s.core).setDin D = s :=
      State.ext_fields rfl rfl hc.symm hd.symm rfl rfl rfl
    rw [List.foldl_nil, hsame] at h
    rwa [List.length_nil, Nat.zero_add]
  | cons X rest ih =>
    obtain ⟨hX, hrest⟩ := List.forall_mem_cons.mp hshort
    have hstep := step_process_at_hand hr ho hX hc (D := rest.flatten ++ D)
      (by rw [hd, List.flatten_cons, List.append_assoc])
    rw [List.length_cons, Nat.add_right_comm]
    refine State.RunsTo.of_step ?_ hstep
    exact ih hrest hr ho rfl rfl h

/-! ## RESET and DIGEST -/

section
variable {s : State} (hr : s.rstN = true) (ho : s.op = .idle) {words : List Word}
include hr ho

theorem step_reset_offered (hc : s.cmds = encode .reset :: words) :
    step s = .next (((s.setCmds words).setCore s.core.afterReset).setOp .idle) := by
  rw [step_of_command hr ho hc (decode_encode rfl), exec_reset, State.setCmds_core]

theorem step_digest_offered (hready : s.doutReady = true) (hc : s.cmds = encode .digest :: words) :
    step s = .next (((s.setCmds words).setDigests (s.digests ++ [doutOf s.core.digest])).setOp .idle) := by
  rw [step_of_command hr ho hc (decode_encode rfl), exec_digest,
    State.offerDigest_of_accepted (s := s.setCmds words) hready, State.setCmds_digests, State.setCmds_core]

end

/-- A hasher that is reset and then fed chunks gives the SHA-256 digest of those, whatever it has absorbed before. -/
theorem Hasher.digest_foldl_feed_afterReset {c : Hasher} (hb : c.BUF.wf = true) (chunks : List (List Byte)) :
    (chunks.foldl Hasher.feed c.afterReset).digest = sha256 chunks.flatten := by
  have hb' : c.afterReset.BUF.wf = true := hb
  have hone := (Hasher.absorbed_afterReset c).feed hb' chunks.flatten
  exact (hone.congr (Hasher.foldl_feed_sameButStale hb' chunks)).digest (Hasher.foldl_feed_wf hb' chunks)

/-- A run over chunks of data and a `DIGEST`, offered in a row to a host that accepts. -/
theorem State.runsTo_of_processes_digest {s : State} (hr : s.rstN = true) (ho : s.op = .idle)
    (hready : s.doutReady = true) {chunks : List (List Byte)} (hshort : ∀ X ∈ chunks, X.length < 2 ^ Config.lenWidth)
    (hc : s.cmds = ((chunks.map processOf).map fun c => encode c.instr) ++ [encode .digest])
    (hd : s.din = chunks.flatten) :
    ∃ t : State, s.RunsTo (chunks.length + 1) t ∧ t.complete ∧
      t.digests = s.digests ++ [doutOf (chunks.foldl Hasher.feed s.core).digest] := by
  have hdigest := step_digest_offered
    (s := ((s.setCmds [encode .digest]).setCore (chunks.foldl Hasher.feed s.core)).setDin []) hr ho hready rfl
  have hdin : s.din = chunks.flatten ++ [] := by rw [hd, List.append_nil]
  exact ⟨_, State.RunsTo.of_processes hshort hr ho hc hdin ((State.runsTo_zero _).of_step hdigest), ⟨rfl, rfl, hr⟩, rfl⟩

/-- The same with a `RESET` in front: the digest is that of the chunks alone. -/
theorem State.runsTo_of_reset_processes_digest {s : State} (hr : s.rstN = true) (ho : s.op = .idle)
    (hready : s.doutReady = true) (hb : s.core.BUF.wf = true) {chunks : List (List Byte)}
    (hshort : ∀ X ∈ chunks, X.length < 2 ^ Config.lenWidth)
    (hc : s.cmds = encode .reset :: (((chunks.map processOf).map fun c => encode c.instr) ++ [encode .digest]))
    (hd : s.din = chunks.flatten) :
    ∃ t : State, s.RunsTo (chunks.length + 1 + 1) t ∧ t.complete ∧
      t.digests = s.digests ++ [doutOf (sha256 chunks.flatten)] := by
  have hreset := step_reset_offered hr ho hc
  obtain ⟨t, hrun, hcomplete, hdigests⟩ := State.runsTo_of_processes_digest
    (s := ((s.setCmds (((chunks.map processOf).map fun c => encode c.instr) ++ [encode .digest])).setCore
      s.core.afterReset).setOp .idle) hr rfl hready hshort rfl hd
  rw [State.setOp_core, State.setCore_core, Hasher.digest_foldl_feed_afterReset hb] at hdigests
  exact ⟨t, hrun.of_step hreset, hcomplete, hdigests⟩

/-! ## The pseudo-operations -/

section
variable {s : State} (hr : s.rstN = true) (ho : s.op = .idle) (hc : s.cmds = []) (hd : s.din = [])
include hr ho hc hd

theorem runsTo_issue_processes {chunks : List (List Byte)} (hshort : ∀ X ∈ chunks, X.length < 2 ^ Config.lenWidth) :
    (s.issue (chunks.map processOf)).RunsTo (chunks.map processOf).length
      (s.setCore (chunks.foldl Hasher.feed s.core)) := by
  have hsame : (((s.issue (chunks.map processOf)).setCmds []).setCore (chunks.foldl Hasher.feed s.core)).setDin [] =
      s.setCore (chunks.foldl Hasher.feed s.core) :=
    State.ext_fields rfl rfl hc.symm hd.symm rfl rfl rfl
  rw [List.length_map]
  refine State.RunsTo.of_processes (s := s.issue (chunks.map processOf)) hshort (words := []) (D := []) (k := 0) hr ho
    ?_ ?_ ?_
  · rw [State.issue_cmds, hc, List.nil_append, List.append_nil]
  · rw [State.issue_din, hd, List.nil_append, List.append_nil, flatMap_data_processOf]
  · rw [State.issue_core, hsame]
    exact State.runsTo_zero _

theorem runsTo_process_pseudo (hb : s.core.BUF.wf = true) (X : List Byte) :
    ∃ t u : State, (s.issue (Pseudo.process X).expand).RunsTo (Pseudo.process X).expand.length t ∧
      exec (.process X.length) (s.offerBytes X) = .next u ∧ t.complete ∧ t.SameButStale u := by
  obtain ⟨chunks, hsplit, rfl, hshort⟩ := splitProcess_eq_map (Nat.lt_succ_self X.length)
  have hdin : (s.offerBytes chunks.flatten).din = chunks.flatten ++ [] := by
    rw [State.offerBytes_din, hd, List.nil_append, List.append_nil]
  rw [Pseudo.expand, hsplit]
  exact ⟨_, _, runsTo_issue_processes hr ho hc hd hshort, exec_process_at_hand (s := s.offerBytes _) ho hdin,
    ⟨hc, ho, hr⟩, ⟨Hasher.foldl_feed_sameButStale hb chunks, rfl, rfl, hd, rfl, rfl, rfl⟩⟩

theorem runsTo_nop_pseudo : (s.issue Pseudo.nop.expand).RunsTo Pseudo.nop.expand.length s := by
  have hrun := runsTo_issue_processes hr ho hc hd (chunks := [[]]) (by simp)
  rwa [List.foldl_cons, List.foldl_nil, Hasher.feed_nil] at hrun

theorem runsTo_hash_pseudo (hready : s.doutReady = true) (hb : s.core.BUF.wf = true) (X : List Byte) :
    ∃ t : State, (s.issue (Pseudo.hash X).expand).RunsTo (Pseudo.hash X).expand.length t ∧
      t.complete ∧ t.digests = s.digests ++ [doutOf (sha256 X)] := by
  obtain ⟨chunks, hsplit, rfl, hshort⟩ := splitProcess_eq_map (Nat.lt_succ_self X.length)
  have hexpand : (Pseudo.hash chunks.flatten).expand = ⟨.reset, []⟩ :: (chunks.map processOf ++ [⟨.digest, []⟩]) := by
    rw [Pseudo.expand, hsplit, List.cons_append]
  have hlength : (Pseudo.hash chunks.flatten).expand.length = chunks.length + 1 + 1 := by
    rw [hexpand, List.length_cons, List.length_append, List.length_map, List.length_singleton]
  have hcmds : (s.issue (Pseudo.hash chunks.flatten).expand).cmds =
      encode .reset :: (((chunks.map processOf).map fun c => encode c.instr) ++ [encode .digest]) := by
    rw [State.issue_cmds, hexpand, hc, List.nil_append, List.map_cons, List.map_append, List.map_singleton]
  have hdin : (s.issue (Pseudo.hash chunks.flatten).expand).din = chunks.flatten := by
    simp [hexpand, hd, flatMap_data_processOf]
  rw [hlength]
  exact State.runsTo_of_reset_processes_digest (s := s.issue _) hr ho hready hb hshort hcmds hdin

end

/-- An input that one `PROCESS` can carry is hashed by three commands. -/
theorem length_expand_hash_of_short {X : List Byte} (h : X.length < 2 ^ 30) : (Pseudo.hash X).expand.length = 3 := by
  rw [Pseudo.expand, splitProcess, Config.lenWidth_eq, if_pos h]
  rfl

/-! ## The statements -/

/-- Settles O50: a run over the chunks of a long `PROCESS`, alone and between `RESET` and `DIGEST`; `NOP` is one empty
chunk. -/
theorem pseudoOperationsOfAnyLength : Obligations.PseudoOperationsOfAnyLength :=
  ⟨fun _ X hb hr ho hc hd => runsTo_process_pseudo hr ho hc hd hb X,
    fun _ X hb hr hready ho hc hd _ => runsTo_hash_pseudo hr ho hc hd hready hb X,
    fun _ hr ho hc hd => runsTo_nop_pseudo hr ho hc hd⟩

/-- Settles O33: the run of `HASH X` in the case of three commands. -/
theorem hashPseudoOperationGivesSha256 : Obligations.HashPseudoOperationGivesSha256 := by
  intro s X hb hr hready ho hc hd hX
  have hrun := runsTo_hash_pseudo hr ho hc hd hready hb X
  rwa [length_expand_hash_of_short hX] at hrun

end Sys2Proof.Machine
end

section
/-!
PROOF. The word functions bit by bit (spec/40_primitives.md R66 to R74): the rotation is the library's `rotateRight`,
the sigma functions are sums of rotated bits, and the corner cases of choice and majority follow from their bits.
-/

namespace Sys2Proof.Machine

theorem word_ext {x y : Word} (h : ∀ i, i < 32 → x.getLsbD i = y.getLsbD i) : x = y :=
  BitVec.eq_of_getLsbD_eq fun i hi => h i hi

theorem getLsbD_ones {i : Nat} (hi : i < 32) : (0xffffffff : Word).getLsbD i = true := by
  have hones : (0xffffffff : Word) = BitVec.allOnes 32 := rfl
  rw [hones, BitVec.getLsbD_allOnes, decide_eq_true hi]

/-! ## The rotation -/

theorem rotr_eq_rotateRight (x : Word) {n : Nat} (hn : n < 32) : rotr x n = x.rotateRight n :=
  (BitVec.rotateRight_eq_rotateRightAux_of_lt hn).symm

/-- The low `32 - n` bits come from above; the others are the low bits of the operand, which wrap around (R66). -/
theorem getLsbD_rotr (x : Word) {n i : Nat} (hn : n < 32) (hi : i < 32) :
    (rotr x n).getLsbD i = x.getLsbD ((i + n) % 32) := by
  rw [rotr_eq_rotateRight x hn, BitVec.getLsbD_rotateRight_of_lt hn]
  by_cases hlow : i < 32 - n
  · have hplace : (i + n) % 32 = n + i := by omega
    rw [decide_eq_true hlow, cond_true, hplace]
  · have hplace : (i + n) % 32 = i - (32 - n) := by omega
    rw [decide_eq_false hlow, cond_false, decide_eq_true hi, Bool.true_and, hplace]

/-- The two parts of a rotation share no bit: the one is zero from bit `32 - n` up, the other below it. -/
theorem rotr_parts_disjoint (x : Word) (n : Nat) : (x >>> n) &&& (x <<< (32 - n)) = 0#32 := by
  refine word_ext fun i _ => ?_
  by_cases hlow : i < 32 - n
  · simp [hlow]
  · simp [BitVec.getLsbD_of_ge x (n + i) (by omega)]

theorem toNat_rotr (x : Word) (n : Nat) :
    (rotr x n).toNat = (x.toNat / 2 ^ n + x.toNat * 2 ^ (32 - n)) % 2 ^ 32 := by
  rw [rotr, ← BitVec.add_eq_or_of_and_eq_zero _ _ (rotr_parts_disjoint x n), BitVec.toNat_add, BitVec.toNat_ushiftRight,
    BitVec.toNat_shiftLeft, Nat.add_mod_mod, Nat.shiftRight_eq_div_pow, Nat.shiftLeft_eq]

theorem rotr_eq_self_of_bits_alike {x : Word} {b : Bool} (hx : ∀ i, i < 32 → x.getLsbD i = b) {n : Nat} (hn : n < 32) :
    rotr x n = x :=
  word_ext fun i hi => by rw [getLsbD_rotr x hn hi, hx i hi, hx _ (Nat.mod_lt _ (by decide))]

/-! ## Choice -/

theorem getLsbD_ch (x y z : Word) {i : Nat} (hi : i < 32) :
    (ch x y z).getLsbD i = if x.getLsbD i then y.getLsbD i else z.getLsbD i := by
  rw [ch, BitVec.getLsbD_xor, BitVec.getLsbD_and, BitVec.getLsbD_and, BitVec.getLsbD_not, decide_eq_true hi]
  cases x.getLsbD i <;> simp

/-- The two terms of the choice never both have a 1 in the same position (R69). -/
theorem ch_terms_disjoint (x y z : Word) : (x &&& y) &&& (~~~x &&& z) = 0#32 :=
  word_ext fun i hi => by cases hx : x.getLsbD i <;> simp [hx]

theorem ch_eq_or (x y z : Word) : ch x y z = (x &&& y) ||| (~~~x &&& z) :=
  word_ext fun i hi => by cases hx : x.getLsbD i <;> simp [ch, hx]

theorem ch_eq_add (x y z : Word) : ch x y z = (x &&& y) + (~~~x &&& z) := by
  rw [ch_eq_or, BitVec.add_eq_or_of_and_eq_zero _ _ (ch_terms_disjoint x y z)]

theorem ch_zero (y z : Word) : ch 0 y z = z :=
  word_ext fun i hi => by simp [getLsbD_ch _ _ _ hi]

theorem ch_ones (y z : Word) : ch 0xffffffff y z = y :=
  word_ext fun i hi => by rw [getLsbD_ch _ _ _ hi, getLsbD_ones hi, if_pos rfl]

theorem ch_self (x y : Word) : ch x y y = y :=
  word_ext fun i hi => by rw [getLsbD_ch _ _ _ hi, ite_self]

/-! ## Majority -/

/-- The eight cases of three bits. -/
theorem getLsbD_maj (x y z : Word) (i : Nat) :
    (maj x y z).getLsbD i = decide (2 ≤ (x.getLsbD i).toNat + (y.getLsbD i).toNat + (z.getLsbD i).toNat) := by
  rw [maj, BitVec.getLsbD_xor, BitVec.getLsbD_xor, BitVec.getLsbD_and, BitVec.getLsbD_and, BitVec.getLsbD_and]
  cases x.getLsbD i <;> cases y.getLsbD i <;> cases z.getLsbD i <;> rfl

theorem maj_comm (x y z : Word) : maj x y z = maj y x z :=
  word_ext fun i _ => by rw [getLsbD_maj, getLsbD_maj, Nat.add_comm (x.getLsbD i).toNat]

theorem maj_right_comm (x y z : Word) : maj x y z = maj x z y :=
  word_ext fun i _ => by rw [getLsbD_maj, getLsbD_maj, Nat.add_right_comm]

theorem maj_zero (y z : Word) : maj 0 y z = y &&& z := by
  refine word_ext fun i _ => ?_
  rw [getLsbD_maj, BitVec.getLsbD_and, BitVec.ofNat_eq_ofNat, BitVec.getLsbD_zero]
  cases y.getLsbD i <;> cases z.getLsbD i <;> rfl

theorem maj_ones (y z : Word) : maj 0xffffffff y z = y ||| z := by
  refine word_ext fun i hi => ?_
  rw [getLsbD_maj, BitVec.getLsbD_or, getLsbD_ones hi]
  cases y.getLsbD i <;> cases z.getLsbD i <;> rfl

theorem maj_self (x z : Word) : maj x x z = x := by
  refine word_ext fun i _ => ?_
  rw [getLsbD_maj]
  cases x.getLsbD i <;> cases z.getLsbD i <;> rfl

/-! ## The sigma functions -/

/-- The shift fills with zeros: no bit re-enters at the top (R67). -/
theorem getLsbD_shiftRight (x : Word) (n i : Nat) :
    (x >>> n).getLsbD i = (decide (i + n < 32) && x.getLsbD (i + n)) := by
  rw [BitVec.getLsbD_ushiftRight, Nat.add_comm n i]
  by_cases h : i + n < 32
  · rw [decide_eq_true h, Bool.true_and]
  · rw [decide_eq_false h, Bool.false_and, BitVec.getLsbD_of_ge x (i + n) (Nat.le_of_not_lt h)]

/-- The bits of a capital sigma (R71, R72). -/
theorem getLsbD_three_rotations (x : Word) {a b c i : Nat} (ha : a < 32) (hb : b < 32) (hc : c < 32) (hi : i < 32) :
    (rotr x a ^^^ rotr x b ^^^ rotr x c).getLsbD i =
      (x.getLsbD ((i + a) % 32)).xor ((x.getLsbD ((i + b) % 32)).xor (x.getLsbD ((i + c) % 32))) := by
  rw [BitVec.getLsbD_xor, BitVec.getLsbD_xor, getLsbD_rotr x ha hi, getLsbD_rotr x hb hi, getLsbD_rotr x hc hi,
    Bool.xor_assoc]

/-- The bits of a small sigma (R73, R74). -/
theorem getLsbD_two_rotations_and_shift (x : Word) {a b i : Nat} (n : Nat) (ha : a < 32) (hb : b < 32) (hi : i < 32) :
    (rotr x a ^^^ rotr x b ^^^ x >>> n).getLsbD i =
      (x.getLsbD ((i + a) % 32)).xor ((x.getLsbD ((i + b) % 32)).xor (decide (i + n < 32) && x.getLsbD (i + n))) := by
  rw [BitVec.getLsbD_xor, BitVec.getLsbD_xor, getLsbD_rotr x ha hi, getLsbD_rotr x hb hi, getLsbD_shiftRight,
    Bool.xor_assoc]

/-! ## The statements -/

/-- Settles O39: the rotation by value and by its bits; all bits of 0 are alike, and so are all bits of 0xffffffff. -/
theorem rotationMovesEveryBit : Obligations.RotationMovesEveryBit := by
  refine ⟨fun x n _ hle => ?_, by decide⟩
  have hn : n < 32 := Nat.lt_succ_of_le hle
  exact ⟨toNat_rotr x n, fun i hi => getLsbD_rotr x hn hi,
    rotr_eq_self_of_bits_alike (fun _ _ => BitVec.getLsbD_zero) hn,
    rotr_eq_self_of_bits_alike (fun _ hi => getLsbD_ones hi) hn⟩

/-- Settles O40: the bits of choice and majority, and the equations that follow from them. -/
theorem choiceAndMajorityBitByBit : Obligations.ChoiceAndMajorityBitByBit :=
  ⟨fun x y z i hi => ⟨getLsbD_ch x y z hi, getLsbD_maj x y z i⟩,
    fun x y z => ⟨ch_eq_or x y z, ch_eq_add x y z, ch_zero y z, ch_ones y z, ch_self x y,
      maj_comm x y z, maj_right_comm x y z, maj_zero y z, maj_ones y z, maj_self x z⟩⟩

/-- Settles O41: three rotations in each capital sigma, two and a shift in each small one; the corner cases
are closed. -/
theorem sigmaFunctionsTapTheirBits : Obligations.SigmaFunctionsTapTheirBits :=
  ⟨fun x _ hi =>
    ⟨getLsbD_three_rotations x (by decide) (by decide) (by decide) hi,
      getLsbD_three_rotations x (by decide) (by decide) (by decide) hi,
      getLsbD_two_rotations_and_shift x 3 (by decide) (by decide) hi,
      getLsbD_two_rotations_and_shift x 10 (by decide) (by decide) hi⟩,
    by decide⟩

end Sys2Proof.Machine
end

section
/-!
PROOF. Bytes, words and the counter by value (spec/40_primitives.md R76 to R79): each byte put below a value multiplies
it by 2^8, and the conversions the other way cut out the digits in that base.
-/

namespace Sys2Proof.Machine

/-! ## Bytes and words -/

theorem toNat_append_byte {n : Nat} (x : BitVec n) (b : Byte) : (x ++ b).toNat = x.toNat * 2 ^ 8 + b.toNat := by
  rw [BitVec.toNat_append, ← Nat.shiftLeft_add_eq_or_of_lt b.isLt, Nat.shiftLeft_eq]

theorem toNat_be32 (b0 b1 b2 b3 : Byte) :
    (be32 b0 b1 b2 b3).toNat = b0.toNat * 2 ^ 24 + b1.toNat * 2 ^ 16 + b2.toNat * 2 ^ 8 + b3.toNat := by
  rw [be32, toNat_append_byte, toNat_append_byte, toNat_append_byte]
  omega

theorem extractLsb'_append_byte {n : Nat} (x : BitVec n) (b : Byte) (k : Nat) :
    (x ++ b).extractLsb' (k + 8) 8 = x.extractLsb' k 8 :=
  BitVec.extractLsb'_append_eq_of_le (Nat.le_add_left 8 k)

theorem bytes32_be32 (b0 b1 b2 b3 : Byte) : bytes32 (be32 b0 b1 b2 b3) = [b0, b1, b2, b3] := by
  simp only [bytes32, be32, extractLsb'_append_byte, BitVec.extractLsb'_append_eq_left,
    BitVec.extractLsb'_append_eq_right]

/-- Neighbouring fields of a word join to one field, and the field of all 32 bits is the word. -/
theorem be32_bytes32 (w : Word) :
    be32 (w.extractLsb' 24 8) (w.extractLsb' 16 8) (w.extractLsb' 8 8) (w.extractLsb' 0 8) = w := by
  rw [be32, BitVec.extractLsb'_append_extractLsb'_eq_extractLsb' (show 24 = 16 + 8 from rfl),
    BitVec.extractLsb'_append_extractLsb'_eq_extractLsb' (show 16 = 8 + 8 from rfl),
    BitVec.extractLsb'_append_extractLsb'_eq_extractLsb' (show 8 = 0 + 8 from rfl)]
  exact BitVec.extractLsb'_eq_self

/-- The byte below a value cut off at bit `k + 8` is its next digit in base 2^8. -/
theorem shiftRight_append_digit {n : Nat} (w : BitVec n) (k : Nat) :
    (w.toNat >>> (k + 8)) * 2 ^ 8 + (w.extractLsb' k 8).toNat = w.toNat >>> k := by
  rw [BitVec.extractLsb'_toNat, Nat.shiftRight_add]
  omega

/-- Eight digits from the top: nothing is left of the value above bit 64 and all of it above bit 0 (R78). -/
theorem foldl_bytes64 (w : BitVec 64) : (bytes64 w).foldl (fun n b => n * 2 ^ 8 + b.toNat) 0 = w.toNat := by
  have htop : 0 * 2 ^ 8 + (w.extractLsb' 56 8).toNat = w.toNat >>> 56 := by
    rw [← shiftRight_append_digit w 56, Nat.shiftRight_eq_zero w.toNat 64 w.isLt]
  simp only [bytes64, List.foldl_cons, List.foldl_nil]
  rw [htop, shiftRight_append_digit w 48, shiftRight_append_digit w 40,
    shiftRight_append_digit w 32, shiftRight_append_digit w 24, shiftRight_append_digit w 16,
    shiftRight_append_digit w 8, shiftRight_append_digit w 0, Nat.shiftRight_zero]

/-! ## The counter -/

theorem toNat_add64 (c : BitVec 64) (n : Nat) : (add64 c n).toNat = (c.toNat + n) % 2 ^ 64 := by
  rw [add64, BitVec.toNat_add, BitVec.toNat_ofNat, Nat.add_mod_mod]

theorem toNat_bitLen (c : BitVec 64) : (bitLen c).toNat = c.toNat * 8 % 2 ^ 64 := by
  rw [bitLen, BitVec.toNat_shiftLeft, Nat.shiftLeft_eq]

/-! ## The statements -/

/-- Settles O42: `BE32` by value, the two round trips, and the digits of `BYTES64`. -/
theorem byteWordConversionsInvert : Obligations.ByteWordConversionsInvert :=
  ⟨fun b0 b1 b2 b3 => ⟨toNat_be32 b0 b1 b2 b3, bytes32_be32 b0 b1 b2 b3⟩,
    fun w => ⟨_, _, _, _, rfl, be32_bytes32 w⟩, fun w => ⟨rfl, foldl_bytes64 w⟩⟩

/-- Settles O43: both operations by value; the corner cases are closed. -/
theorem counterArithmeticWraps : Obligations.CounterArithmeticWraps :=
  ⟨toNat_add64, toNat_bitLen, by decide⟩

end Sys2Proof.Machine
end

section
/-!
PROOF. The message schedule word by word (spec/41_compress.md R86, R87): the words loaded from the block, the recurrence on
the finished schedule, and the schedule of an all-zero block.
-/

namespace Sys2Proof.Machine

theorem loadSchedule_getD (block : List Byte) {i : Nat} (hi : i < 16) :
    (loadSchedule block).getD i 0 =
      be32 (block.getD (4 * i) 0) (block.getD (4 * i + 1) 0) (block.getD (4 * i + 2) 0) (block.getD (4 * i + 3) 0) := by
  rw [List.getD_eq_getElem _ _ (by rwa [loadSchedule_length])]
  simp only [loadSchedule, List.getElem_map, List.getElem_range]

theorem messageSchedule_getD_loaded (block : List Byte) {i : Nat} (hi : i < 16) :
    (messageSchedule block).getD i 0 =
      be32 (block.getD (4 * i) 0) (block.getD (4 * i + 1) 0) (block.getD (4 * i + 2) 0) (block.getD (4 * i + 3) 0) := by
  rw [messageSchedule, extendSchedule_getD_old _ _ (by rwa [loadSchedule_length]), loadSchedule_getD block hi]

theorem messageSchedule_getD_recurrence (block : List Byte) {t : Nat} (h16 : 16 ≤ t) (h64 : t < 64) :
    (messageSchedule block).getD t 0 =
      smallSigma1 ((messageSchedule block).getD (t - 2) 0) + (messageSchedule block).getD (t - 7) 0
        + smallSigma0 ((messageSchedule block).getD (t - 15) 0) + (messageSchedule block).getD (t - 16) 0 := by
  have hnext : (messageSchedule block).getD t 0 = nextScheduleWord ((messageSchedule block).take t) :=
    extendSchedule_getD_recurrence 48 (loadSchedule block) (by rwa [loadSchedule_length]) (by rwa [loadSchedule_length])
  rw [hnext, nextScheduleWord_take _ h16 (by rw [messageSchedule_length]; exact h64.le)]

/-- Zero bytes load as zero words, and the recurrence makes zero of four zero words. -/
theorem messageSchedule_zeros_getD (t : Nat) (h64 : t < 64) :
    (messageSchedule (List.replicate 64 0)).getD t 0 = 0 := by
  induction t using Nat.strong_induction_on with
  | _ t ih =>
    by_cases h16 : t < 16
    · rw [messageSchedule_getD_loaded _ h16]
      simp only [List.getD, List.getElem?_getD_replicate_default_eq]
      decide
    · rw [messageSchedule_getD_recurrence _ (by omega) h64, ih (t - 2) (by omega) (by omega),
        ih (t - 7) (by omega) (by omega), ih (t - 15) (by omega) (by omega), ih (t - 16) (by omega) (by omega)]
      decide

/-- Settles O34: the loaded words, the recurrence, and zeros by induction along the schedule. -/
theorem scheduleObeysTheRecurrence : Obligations.ScheduleObeysTheRecurrence := by
  refine ⟨fun block => ⟨messageSchedule_length block, fun i => messageSchedule_getD_loaded block,
    fun t => messageSchedule_getD_recurrence block⟩, fun t h64 => ?_⟩
  have hlen : t < (messageSchedule (List.replicate 64 0)).length := by rwa [messageSchedule_length]
  have hzero := messageSchedule_zeros_getD t h64
  rwa [List.getD_eq_getElem _ _ hlen] at hzero ⊢

end Sys2Proof.Machine
end

section
/-!
PROOF. The rounds and the feed-forward (spec/41_compress.md R88 to R92): one more schedule word is one more round, and
working variables whose index rotates show in every round what the shift of R90 would have moved there.
-/

namespace Sys2Proof.Machine

/-! ## The rounds -/

theorem zip_take_right {α β : Type} (ks : List α) (W : List β) (n : Nat) :
    ks.zip (W.take n) = (ks.zip W).take n := by
  induction n generalizing ks W with
  | zero => simp
  | succ n ih => cases ks <;> cases W <;> simp [ih]

/-- Round `t` is the one that the schedule word `W[t]` adds (R89). -/
theorem mixRounds_take_succ (v : Words8) {W : List Word} {t : Nat} (h64 : t < 64) (hW : t < W.length) :
    mixRounds v (W.take (t + 1)) = mixRound (mixRounds v (W.take t)) (roundConstants.getD t 0) (W.getD t 0) := by
  have hK : t < roundConstants.length := by rwa [roundConstants_length]
  have hzip : t < (roundConstants.zip W).length := by rw [List.length_zip]; exact lt_min hK hW
  have hround : (roundConstants.zip W)[t] = (roundConstants.getD t 0, W.getD t 0) := by
    rw [List.getElem_zip, List.getD_eq_getElem _ _ hK, List.getD_eq_getElem _ _ hW]
  rw [mixRounds, mixRounds, zip_take_right, zip_take_right, List.take_succ_eq_append_getElem hzip, List.foldl_append,
    hround, List.foldl_cons, List.foldl_nil]

/-- Settles O35: no round, one more round, and all 64 of them. -/
theorem roundsShiftTheWindow : Obligations.RoundsShiftTheWindow := by
  refine ⟨fun H block => ?_, fun H v block t T1 T2 h64 hv hT1 hT2 => ?_, fun H block => mixRounds_take H _⟩
  · rw [List.take_zero, mixRounds, List.zip_nil_right, List.foldl_nil]
  · rw [mixRounds_take_succ H h64 (by rwa [messageSchedule_length]), ← hv, hT1, hT2]
    rfl

/-! ## The feed-forward -/

theorem feedForward_getD (H v : Words8) {i : Nat} (hi : i < 8) :
    (feedForward H v).toList.getD i 0 = H.toList.getD i 0 + v.toList.getD i 0 := by
  interval_cases i <;> rfl

/-- Settles O36: `COMPRESS` ends with the feed-forward. -/
theorem feedForwardAddsToTheOldState : Obligations.FeedForwardAddsToTheOldState :=
  fun _ _ _ hi => feedForward_getD _ _ hi

/-! ## The rotating index -/

/-- The eight places after round `t` of the rotating form: the places of `v[3]` and `v[7]` are written (R91). -/
def rotatedStep (t : Nat) (places : List Word) (k w : Word) : List Word :=
  (places.set ((3 + 7 * t) % 8) ((rotatedView t places).w3 + roundT1 (rotatedView t places) k w)).set ((7 + 7 * t) % 8)
    (roundT1 (rotatedView t places) k w + roundT2 (rotatedView t places))

theorem rotatedRounds_cons (t : Nat) (places : List Word) (k w : Word) (kws : List (Word × Word)) :
    rotatedRounds t places ((k, w) :: kws) = rotatedRounds (t + 1) (rotatedStep t places k w) kws := (rfl)

section
variable (t : Nat) (places : List Word) (k w : Word)

@[simp] theorem rotatedStep_length : (rotatedStep t places k w).length = places.length := by
  rw [rotatedStep, List.length_set, List.length_set]

theorem rotatedStep_getD_seventh (h8 : places.length = 8) : (rotatedStep t places k w).getD ((7 + 7 * t) % 8) 0 =
    roundT1 (rotatedView t places) k w + roundT2 (rotatedView t places) := by
  have hlt : (7 + 7 * t) % 8 < places.length := by omega
  rw [rotatedStep, List.getD, List.getElem?_set_self (by rwa [List.length_set]), Option.getD_some]

theorem rotatedStep_getD_third (h8 : places.length = 8) : (rotatedStep t places k w).getD ((3 + 7 * t) % 8) 0 =
    (rotatedView t places).w3 + roundT1 (rotatedView t places) k w := by
  have hlt : (3 + 7 * t) % 8 < places.length := by omega
  rw [rotatedStep, List.getD, List.getElem?_set_ne (by omega), List.getElem?_set_self hlt, Option.getD_some]

/-- The indices 3 and 7 of the written places are those that leave 3 modulo 4. -/
theorem rotatedStep_getD_other {i : Nat} (h3 : i % 4 ≠ 3) :
    (rotatedStep t places k w).getD ((i + 7 * t) % 8) 0 = places.getD ((i + 7 * t) % 8) 0 := by
  rw [rotatedStep, List.getD, List.getElem?_set_ne (by omega), List.getElem?_set_ne (by omega), List.getD]

/-- In the next round each place goes by the name of the variable after it: two writes do what the shift of R90 does. -/
theorem rotatedView_succ_rotatedStep (h8 : places.length = 8) :
    rotatedView (t + 1) (rotatedStep t places k w) = mixRound (rotatedView t places) k w := by
  have hfirst : (0 + 7 * (t + 1)) % 8 = (7 + 7 * t) % 8 := by omega
  have hnext : ∀ i j, i + 1 = j → (j + 7 * (t + 1)) % 8 = (i + 7 * t) % 8 := by omega
  rw [rotatedView, hfirst, hnext 0 1 rfl, hnext 1 2 rfl, hnext 2 3 rfl, hnext 3 4 rfl, hnext 4 5 rfl, hnext 5 6 rfl,
    hnext 6 7 rfl, rotatedStep_getD_seventh t places k w h8, rotatedStep_getD_third t places k w h8]
  simp only [rotatedStep_getD_other t places k w, ne_eq, Nat.reduceMod, Nat.reduceEqDiff, not_false_eq_true]
  rfl

end

theorem rotatedRounds_eq_foldl (kws : List (Word × Word)) (t : Nat) {places : List Word} (h8 : places.length = 8) :
    rotatedRounds t places kws = kws.foldl (fun u kw => mixRound u kw.1 kw.2) (rotatedView t places) := by
  induction kws generalizing t places with
  | nil => rfl
  | cons kw kws ih =>
    obtain ⟨k, w⟩ := kw
    rw [rotatedRounds_cons, ih (t + 1) (by rw [rotatedStep_length, h8]), rotatedView_succ_rotatedStep t places k w h8,
      List.foldl_cons]

/-- Settles O38: the rounds of the rotating form are the rounds that move the values. -/
theorem rotatingIndexAgrees : Obligations.RotatingIndexAgrees := by
  intro H block
  have hstart : rotatedView 0 H.toList = H := rfl
  rw [compressRotated, rotatedRounds_eq_foldl _ 0 (show H.toList.length = 8 from rfl), hstart, compress, mixRounds]

end Sys2Proof.Machine
end

section
/-!
PROOF. What stops the block (spec/60_exceptions.md R120, R123): every command answers a next state, so only a word that is
no command can refuse a step.
-/

namespace Sys2Proof.Machine

theorem exec_answers (i : Instr) (s : State) : ∃ t, exec i s = .next t := by
  cases i with
  | reset => exact ⟨_, exec_reset s⟩
  | process len => exact ⟨_, exec_process len s⟩
  | digest => exact ⟨_, exec_digest s⟩

/-- Settles O6: the cases of a step; the one that may not answer is a ready block that is offered a reserved word. -/
theorem onlyReservedWordsStopTheBlock : Obligations.OnlyReservedWordsStopTheBlock := by
  intro s
  cases hr : s.rstN with
  | false => exact .inl ⟨_, step_of_rstN_low hr⟩
  | true =>
    cases ho : s.op with
    | process rem => exact .inl ⟨_, step_of_process hr ho⟩
    | digest out => exact .inl ⟨_, step_of_digest hr ho⟩
    | idle =>
      cases hc : s.cmds with
      | nil => exact .inl ⟨_, step_of_no_command hr ho hc⟩
      | cons w rest =>
        cases hd : decode w with
        | command i => exact .inl (step_of_command hr ho hc hd ▸ exec_answers i _)
        | reserved why =>
          exact .inr ⟨s.cmdReady_iff.mpr ⟨hr, ho⟩, w, rest, why, rfl, hd, step_of_reserved hr ho hc hd⟩

end Sys2Proof.Machine
end

section
/-!
PROOF. What a `PROCESS` leaves (spec/42_hasher.md R103 to R107): the counter, the pieces that are compressed and the
bytes that are buffered, and that neither an empty `PROCESS` nor the cut of the data into chunks makes a difference.
-/

namespace Sys2Proof.Machine

theorem blocksOf_length (L : List Byte) : (blocksOf L).length = L.length / 64 := by
  rw [blocksOf, List.length_map, List.length_range]

/-- Settles O18: `Hasher.absorb_spec`, for the first `len` bytes offered. -/
theorem processPostState : Obligations.ProcessPostState := by
  intro s len hb hlen
  have hl : (s.din.take len).length = len := List.length_take_of_le hlen
  have hspec := Hasher.absorb_spec (c := s.core.count len) hb (s.din.take len)
  refine ⟨_, exec_process len s, ?_, ?_, ?_, ?_⟩
  · rw [State.takeData_core]; exact hspec.hash
  · rw [blocksOf_length, List.length_append, Hasher.validBytes_length, hl]
  · rw [State.takeData_core]; exact hspec.valid
  · rw [State.takeData_core]; exact hspec.fill.trans (by rw [hl, Hasher.count_BUFCNT])

/-- Settles O17: what `exec_CNT` says of a `PROCESS`, by value; with enough bytes offered it does not wait. -/
theorem processCountsAndCompletes : Obligations.ProcessCountsAndCompletes := by
  have hcount (s : State) (len : Nat) :
      ((s.setCore (s.core.count len)).takeData len).core.CNT.toNat = (s.core.CNT.toNat + len) % 2 ^ 64 := by
    rw [exec_CNT (exec_process len s), toNat_add64]
  refine ⟨fun s len hlen => ?_, fun s len => ⟨_, exec_process len s, hcount s len⟩⟩
  obtain ⟨hcmds, -, hrst, hdout⟩ := exec_takesAtMostData (exec_process len s)
  exact ⟨_, exec_process len s, State.takeData_op_of_enough hlen, hcount s len, State.takeData_din _ len, hcmds,
    State.takeData_digests _ len, hrst, hdout⟩

/-- Settles O19: feeding no bytes leaves the hasher as it is. -/
theorem zeroLengthProcessChangesNothing : Obligations.ZeroLengthProcessChangesNothing := by
  intro s ho
  have hsame : (s.setCore s.core).setDin s.din = s := State.ext_fields rfl rfl rfl rfl rfl rfl rfl
  have hexec := exec_process_at_hand ho (X := []) rfl
  rwa [Hasher.feed_nil, hsame] at hexec

/-! ## Chunks -/

theorem execAll_of_next {i : Instr} {s t : State} (h : exec i s = .next t) (p : List Instr) :
    execAll (i :: p) s = execAll p t := by
  rw [execAll, h]

/-- A `PROCESS` for each chunk feeds the hasher chunk by chunk. -/
theorem execAll_processes_at_hand {chunks : List (List Byte)} {s : State} (ho : s.op = .idle) {D : List Byte}
    (hd : s.din = chunks.flatten ++ D) :
    execAll (chunks.map fun X => .process X.length) s =
      .next ((s.setCore (chunks.foldl Hasher.feed s.core)).setDin D) := by
  induction chunks generalizing s with
  | nil =>
    have hsame : (s.setCore s.core).setDin D = s := State.ext_fields rfl rfl rfl hd.symm rfl rfl rfl
    rw [List.foldl_nil, hsame]
    rfl
  | cons X rest ih =>
    have hdin : s.din = X ++ (rest.flatten ++ D) := by rw [hd, List.flatten_cons, List.append_assoc]
    rw [List.map_cons, execAll_of_next (exec_process_at_hand ho hdin)]
    exact ih (s := (s.setCore (s.core.feed X)).setDin (rest.flatten ++ D)) ho rfl

/-- Settles O22: both leave hashers that differ at most in stale bytes, on which the digest does not depend. -/
theorem chunkingIsTransparent : Obligations.ChunkingIsTransparent := by
  intro s chunks rest hb ho hd
  have hsame := Hasher.foldl_feed_sameButStale hb chunks
  exact ⟨_, _, execAll_processes_at_hand ho hd, exec_process_at_hand ho hd,
    ⟨hsame, rfl, rfl, rfl, rfl, rfl, rfl⟩,
    Hasher.digest_eq_of_sameButStale hsame (Hasher.foldl_feed_wf hb chunks) (Hasher.feed_spec hb _).buffer⟩

end Sys2Proof.Machine
end

section
/-!
PROOF. The footer and the digest (spec/42_hasher.md R110 to R113, R116): the footer fills the buffered bytes up to one
block or two, and the digest is the hash state of the copy that has absorbed it.
-/

namespace Sys2Proof.Machine

/-! ## The length of the footer -/

theorem Hasher.fill_add_footerLength_of_le {c : Hasher} (h : c.BUFCNT.toNat ≤ 55) :
    c.BUFCNT.toNat + c.footerLength = 64 := by
  rw [Hasher.footerLength, if_pos h]; omega

theorem Hasher.fill_add_footerLength_of_ge {c : Hasher} (h : 56 ≤ c.BUFCNT.toNat) :
    c.BUFCNT.toNat + c.footerLength = 128 := by
  have hlt := c.fill_lt
  rw [Hasher.footerLength, if_neg (by omega)]; omega

theorem Hasher.footerLength_bounds (c : Hasher) : 9 ≤ c.footerLength ∧ c.footerLength ≤ 72 := by
  have hlt := c.fill_lt
  by_cases h : c.BUFCNT.toNat ≤ 55
  · have := Hasher.fill_add_footerLength_of_le h; omega
  · have := Hasher.fill_add_footerLength_of_ge (c := c) (by omega); omega

/-- Settles O25: the bounds, the two sums, and the six values by the fill count. -/
theorem footerLengthFillsOneOrTwoBlocks : Obligations.FooterLengthFillsOneOrTwoBlocks := by
  intro c
  have hvalue {n : BitVec 6} (h : c.BUFCNT = n) : c.footerLength = (if n.toNat ≤ 55 then 64 else 128) - n.toNat := by
    rw [Hasher.footerLength, h]
  exact ⟨c.footerLength_bounds.1, c.footerLength_bounds.2, Hasher.fill_add_footerLength_of_le,
    Hasher.fill_add_footerLength_of_ge, hvalue, hvalue, hvalue, hvalue, hvalue, hvalue⟩

/-! ## Its bytes -/

theorem bytes64_length (w : BitVec 64) : (bytes64 w).length = 8 := (rfl)

/-- The bytes of the footer in front of the bit length (R111). -/
def Hasher.footerHead (c : Hasher) : List Byte := 0x80 :: List.replicate (c.footerLength - 9) 0x00

theorem Hasher.footer_eq_head_append (c : Hasher) : c.footer = c.footerHead ++ bytes64 (bitLen c.CNT) := (rfl)

theorem Hasher.footerHead_length (c : Hasher) : c.footerHead.length = c.footerLength - 8 := by
  have hbounds := c.footerLength_bounds
  rw [Hasher.footerHead, List.length_cons, List.length_replicate]; omega

theorem Hasher.footer_length (c : Hasher) : c.footer.length = c.footerLength := by
  have hbounds := c.footerLength_bounds
  rw [Hasher.footer_eq_head_append, List.length_append, Hasher.footerHead_length, bytes64_length]; omega

/-- Settles O26: a head of `0x80` and zeros, `flen - 8` bytes long, and the bit length. -/
theorem footerLayout : Obligations.FooterLayout := by
  intro c
  refine ⟨c.footer_length, rfl, ?_, fun i h1 hi => ?_⟩
  · rw [Hasher.footer_eq_head_append, List.drop_left' c.footerHead_length]
  · obtain ⟨j, rfl⟩ : ∃ j, i = j + 1 := ⟨i - 1, by omega⟩
    rw [Hasher.footer_eq_head_append, List.getD_append _ _ _ _ (by rwa [Hasher.footerHead_length]), Hasher.footerHead,
      List.getD_cons_succ, List.getD_replicate _ (by omega)]

/-! ## The copy that has absorbed it -/

theorem Hasher.padded_H {c : Hasher} (hb : c.BUF.wf = true) : c.padded.H = hashBlocks c.H (c.validBytes ++ c.footer) :=
  (Hasher.feed_spec hb c.footer).hash

theorem Hasher.validBytes_append_footer_length (c : Hasher) :
    (c.validBytes ++ c.footer).length = c.BUFCNT.toNat + c.footerLength := by
  rw [List.length_append, Hasher.validBytes_length, Hasher.footer_length]

theorem Hasher.padded_BUFCNT {c : Hasher} (hb : c.BUF.wf = true) : c.padded.BUFCNT = 0 := by
  have hfill : c.padded.BUFCNT.toNat = (c.BUFCNT.toNat + c.footer.length) % 64 := (Hasher.feed_spec hb c.footer).fill
  apply BitVec.eq_of_toNat_eq
  rw [hfill, Hasher.footer_length]
  by_cases h : c.BUFCNT.toNat ≤ 55
  · rw [Hasher.fill_add_footerLength_of_le h]; rfl
  · rw [Hasher.fill_add_footerLength_of_ge (by omega)]; rfl

/-- Settles O27: the valid bytes and the footer are one block, or two. -/
theorem footerIsFedThroughProcessOnTheCopy : Obligations.FooterIsFedThroughProcessOnTheCopy := by
  intro c hb
  have hlen := c.validBytes_append_footer_length
  refine ⟨Hasher.padded_BUFCNT hb, ?_, fun h => ?_, fun h => ?_⟩
  · rw [Hasher.padded, Hasher.feed_CNT, Hasher.footer_length]
  · rw [Hasher.fill_add_footerLength_of_le h] at hlen
    rw [Hasher.padded_H hb, hashBlocks_one _ hlen]
  · rw [Hasher.fill_add_footerLength_of_ge h] at hlen
    obtain ⟨hfirst, hsplit⟩ := block_and_rest (L := c.validBytes ++ c.footer) (by omega)
    have hlast : ((c.validBytes ++ c.footer).drop 64).length = 64 := by rw [List.length_drop, hlen]
    rw [Hasher.padded_H hb]
    conv_lhs => rw [hsplit]
    rw [hashBlocks_block_append _ hfirst, hashBlocks_one _ hlast]

/-! ## The bytes of the digest -/

theorem bytes32_length (w : Word) : (bytes32 w).length = 4 := (rfl)

theorem flatMap_bytes32_length (ws : List Word) : (ws.flatMap bytes32).length = 4 * ws.length := by
  induction ws with
  | nil => rfl
  | cons w ws ih => rw [List.flatMap_cons, List.length_append, bytes32_length, ih, List.length_cons]; omega

/-- Word `i` of a sequence stands at bytes `4i` to `4i + 3`. -/
theorem flatMap_bytes32_word (ws : List Word) {i : Nat} (hi : i < ws.length) :
    ((ws.flatMap bytes32).drop (4 * i)).take 4 = bytes32 (ws.getD i 0) := by
  induction ws generalizing i with
  | nil => exact absurd hi (Nat.not_lt_zero i)
  | cons w ws ih =>
    rw [List.flatMap_cons]
    cases i with
    | zero => exact List.take_left' (bytes32_length w)
    | succ i =>
      rw [Nat.mul_succ, Nat.add_comm, ← List.drop_drop, List.drop_left' (bytes32_length w), List.getD_cons_succ]
      exact ih (Nat.lt_of_succ_lt_succ hi)

/-- Settles O28: the eight words of the copy's hash state, each four bytes. -/
theorem digestIsTheCopysWordsBigEndian : Obligations.DigestIsTheCopysWordsBigEndian := by
  intro c
  rw [Hasher.digest, digestBytes]
  exact ⟨flatMap_bytes32_length _, fun i hi => flatMap_bytes32_word _ hi⟩

/-! ## The padding -/

theorem paddedMessage_length (M : List Byte) :
    (paddedMessage M).length = M.length + 1 + zeroCount M.length + 8 := by
  simp only [paddedMessage, List.length_append, List.length_cons, List.length_replicate, bytes64_length]
  omega

/-- Settles O32: `zeroCount` is what is missing to a whole block, and less than one. -/
theorem paddingIsTheShortest : Obligations.PaddingIsTheShortest := by
  intro M
  rw [paddedMessage_length, zeroCount]
  exact ⟨by omega, fun k hk => by omega⟩

end Sys2Proof.Machine
end

section
/-!
PROOF. `RESET` and `DIGEST` (spec/42_hasher.md R101, R108, R114, R116): a reset hasher is a fresh one, a digest leaves
the live state alone, and its value is a function of the message absorbed.
-/

namespace Sys2Proof.Machine

/-! ## RESET -/

/-- A reset changes nothing in the Fresh state (R100, R101). -/
theorem Hasher.afterReset_of_fresh {c : Hasher} (h : c.fresh) : c.afterReset = c := by
  obtain ⟨hhash, hfill, hcount⟩ := h
  exact Hasher.ext_fields hhash.symm rfl hfill.symm hcount.symm

/-- Settles O15: `RESET` puts the Fresh state, in which it changes nothing. -/
theorem resetCommandRestoresTheFreshState : Obligations.ResetCommandRestoresTheFreshState := by
  have hfresh : ∀ s : State, s.core.fresh → s.op = .idle → exec .reset s = .next s := fun s h ho => by
    rw [exec_reset, Hasher.afterReset_of_fresh h, Host.Outcome.next.injEq]
    exact State.ext_fields rfl ho.symm rfl rfl rfl rfl rfl
  exact ⟨rfl, fun s => ⟨_, exec_reset s, rfl, rfl, rfl, rfl, hfresh _ ⟨rfl, rfl, rfl⟩ rfl⟩, hfresh,
    fun s s' => ⟨_, _, exec_reset s, exec_reset s', Hasher.afterReset_sameButStale _ _⟩⟩

/-! ## DIGEST -/

/-- A `DIGEST` the host accepts: the digest of the live state is transferred. -/
theorem exec_digest_accepted {s : State} (h : s.doutReady = true) :
    exec .digest s = .next ((s.setDigests (s.digests ++ [doutOf s.core.digest])).setOp .idle) := by
  rw [exec_digest, State.offerDigest_of_accepted h]

/-- Settles O24: the two things `State.offerDigest` can do. -/
theorem digestAnswersAndKeepsTheLiveState : Obligations.DigestAnswersAndKeepsTheLiveState := by
  refine ⟨rfl, fun s h => ⟨_, exec_digest_accepted h, rfl, rfl, rfl, rfl, rfl, rfl, rfl⟩, fun s h => ?_⟩
  rw [exec_digest, State.offerDigest_of_not_accepted h]
  exact ⟨_, rfl, rfl, rfl, rfl, rfl, rfl, rfl, rfl⟩

/-- Settles O31: the footer makes the message absorbed the padded one. -/
theorem digestIsSha256OfTheAbsorbedMessage : Obligations.DigestIsSha256OfTheAbsorbedMessage := by
  intro s M hb habsorbed _ hready
  refine ⟨_, exec_digest_accepted hready, ?_⟩
  rw [State.setOp_digests, State.setDigests_digests, habsorbed.digest hb]

/-! ## Sequences of PROCESS and DIGEST -/

/-- The hasher of `s` has absorbed `M` and holds it in canonical form, the bytes `D` are offered, and the host accepts
digests. -/
structure State.ReadyWith (s : State) (M D : List Byte) : Prop where
  buffer : s.core.BUF.wf = true
  absorbed : s.core.Absorbed M 0
  din : s.din = D
  doutReady : s.doutReady = true

theorem Hasher.absorbed_of_fresh {c : Hasher} (h : c.fresh) : c.Absorbed [] 0 :=
  Hasher.afterReset_of_fresh h ▸ Hasher.absorbed_afterReset c

/-- `PROCESS X` and `DIGEST` transfer the digest of all that has been absorbed, and leave a state ready for more. -/
theorem State.ReadyWith.execAll_process_digest {s : State} {M X D : List Byte} (h : s.ReadyWith M (X ++ D))
    (p : List Instr) :
    ∃ t : State, execAll (.process X.length :: .digest :: p) s = execAll p t ∧ t.ReadyWith (M ++ X) D ∧
      t.digests = s.digests ++ [doutOf (sha256 (M ++ X))] := by
  obtain ⟨hb, habsorbed, hdin, hready⟩ := h
  have hb' := (Hasher.feed_spec hb X).buffer
  have habsorbed' := habsorbed.feed hb X
  have hprocess := exec_process_at_hand (s := s.setOp .idle) rfl hdin
  have hdigest := exec_digest_accepted (s := ((s.setOp .idle).setCore (s.core.feed X)).setDin D) hready
  rw [State.setDin_core, State.setCore_core, habsorbed'.digest hb'] at hdigest
  exact ⟨_, (execAll_of_next hprocess _).trans (execAll_of_next hdigest p), ⟨hb', habsorbed', rfl, hready⟩, rfl⟩

/-- Settles O30: two digests of one live state, and digests that are those of the messages absorbed. -/
theorem digestIsIdempotentAndInterleaves : Obligations.DigestIsIdempotentAndInterleaves := by
  refine ⟨fun s ho hready => ?_, fun s u X Y rest rest' hb hb' hs hu hready hready' hd hd' => ?_,
    fun s u X rest rest' hb hb' hu hready hready' hd hd' => ?_⟩
  · have hfirst := exec_digest_accepted hready
    have hsecond := exec_digest_accepted (s := (s.setDigests (s.digests ++ [doutOf s.core.digest])).setOp .idle) hready
    exact ⟨doutOf s.core.digest, _, (execAll_of_next hfirst _).trans (execAll_of_next hsecond []),
      State.ext_fields rfl ho.symm rfl rfl (List.append_assoc _ _ _) rfl rfl⟩
  · obtain ⟨t, ht, htready, htdigests⟩ := State.ReadyWith.execAll_process_digest (s := s)
      ⟨hb, Hasher.absorbed_of_fresh hs, hd.trans (List.append_assoc X Y rest), hready⟩ [.process Y.length, .digest]
    obtain ⟨v, hv, -, hvdigests⟩ := htready.execAll_process_digest []
    obtain ⟨w, hw, -, hwdigests⟩ := State.ReadyWith.execAll_process_digest (s := u)
      ⟨hb', Hasher.absorbed_of_fresh hu, hd', hready'⟩ []
    refine ⟨doutOf (sha256 ([] ++ X)), _, v, w, ht.trans hv, ?_, hw, hwdigests⟩
    rw [hvdigests, htdigests, List.append_assoc [] X Y, List.append_assoc]
    rfl
  · obtain ⟨t, ht, -, htdigests⟩ := State.ReadyWith.execAll_process_digest
      (s := (s.setCore s.core.afterReset).setOp .idle) ⟨hb, Hasher.absorbed_afterReset _, hd, hready⟩ []
    obtain ⟨v, hv, -, hvdigests⟩ := State.ReadyWith.execAll_process_digest (s := u)
      ⟨hb', Hasher.absorbed_of_fresh hu, hd', hready'⟩ []
    exact ⟨_, t, v, (execAll_of_next (exec_reset s) _).trans ht, htdigests, hv, hvdigests⟩

end Sys2Proof.Machine
end

section
/-!
PROOF. The idle block (spec/60_exceptions.md R134): without a command word a step holds the state.
-/

namespace Sys2Proof.Machine

/-- Settles O5: the equation of `step` for a ready block that is offered no word. -/
theorem idleBlockHoldsItsState : Obligations.IdleBlockHoldsItsState :=
  fun _ hr ho hc => step_of_no_command hr ho hc

end Sys2Proof.Machine
end

section
/-!
PROOF. The hardware reset (spec/70_reset_and_hazards.md R140 to R142): the step with `rst_n` low is
`State.hardwareReset`, which puts the registers `RESET` puts, and a block that is idle with `rst_n` high is ready.
-/

namespace Sys2Proof.Machine

/-- A reset puts the Fresh state (R100, R101). -/
theorem Hasher.afterReset_fresh (c : Hasher) : c.afterReset.fresh := ⟨rfl, rfl, rfl⟩

/-- The handshake outputs of an idle block whose `rst_n` is high (R140). -/
theorem State.outputs_of_idle {s : State} (hr : s.rstN = true) (ho : s.op = .idle) :
    s.cmdReady = true ∧ s.dinReady = false ∧ s.doutValid = false :=
  ⟨s.cmdReady_iff.mpr ⟨hr, ho⟩, by rw [State.dinReady, ho], by rw [State.doutValid, ho]⟩

/-- What a pulse of `rst_n` leaves, whatever the state before it. -/
theorem State.init_eq (s : State) : s.init = .next ((s.driveReset false).hardwareReset.driveReset true) := by
  rw [State.init, step_of_rstN_low (s := s.driveReset false) rfl]

/-- Settles O11: the step with `rst_n` low is the hardware reset, and a stuck block holds its state. -/
theorem hardwareResetAbandonsTheOperation : Obligations.HardwareResetAbandonsTheOperation := by
  refine ⟨fun s hr => ?_, fun s => step_of_stuck⟩
  obtain ⟨hhash, hfill, hcount⟩ := s.core.afterReset_fresh
  exact ⟨s.hardwareReset, step_of_rstN_low hr, hhash, hfill, hcount, s.hardwareReset_op, s.hardwareReset_din,
    s.hardwareReset_digests, State.outputs_of_idle (s := s.hardwareReset.driveReset true) rfl rfl⟩

/-- Settles O12: the pulse and `RESET` both put `Hasher.afterReset`; that a busy block takes no command is a part of
`channelsAreConsumedInOrder`. -/
theorem hardwareResetEqualsResetCommand : Obligations.HardwareResetEqualsResetCommand := by
  refine ⟨fun s => ?_, fun s t hbusy hstep => (channelsAreConsumedInOrder s t hstep).1 hbusy⟩
  exact ⟨_, _, s.init_eq, exec_reset s, rfl, s.core.afterReset_fresh, State.outputs_of_idle rfl rfl⟩

end Sys2Proof.Machine
end
